-- ==== Sys2Proof/Word.lean ====
section
/-! DEFINITION. The word types of the block and the integer primitives' plainest forms: 32-bit registers and
operands (spec/00_scope.md R7, `W`), the 128-bit command word (spec/30_encoding.md R80), one byte. -/

namespace Sys2Proof

/-- A register, an operand, a response's data: `W = 32` bits (R7). A register of kind `fx` is read through
`BitVec.toInt`, which is the spec's `s32`; one of kind `u32` through `BitVec.toNat` (R9, R10). -/
abbrev Word := BitVec 32

/-- A command word, `CMD_WORD[127:0]`, presented whole (R80). -/
abbrev CmdWord := BitVec 128

/-- One byte of a serial link (R62). -/
abbrev Byte := BitVec 8

/-- The raw integer of real 1.0: `F = 16` fraction bits (R7, R10). -/
abbrev fxOne : Int := 65536

end Sys2Proof
end

