-- ==== Sys2Proof/Config.lean ====
section
/-! DEFINITION. The configuration parameters of spec/00_scope.md R7 that a platform sets. They are static inputs
of the block, constant from one reset to the next, and no state of it. Log 2 says where the model keeps them. -/

namespace Sys2Proof

/-- The parameters of R7 that are not fixed numbers of the format. `W`, `F` and the tick length are fixed and are
in the types and rules themselves; `ACCW` has no counterpart because the rules compute on unbounded integers,
which R103 allows. -/
structure Config where
  /-- `SAMPLE_MS`, u32, OPEN: the controller's sampling interval. -/
  sampleMs : Word
  /-- `PERIOD_MS`, u32, OPEN: the actuator's control period. -/
  periodMs : Word
  /-- `HALF_CYCLE_MS`, u32, 10 in this hardware, kept as a named parameter (R7, D14; log 3). -/
  halfCycleMs : Word
  /-- `SP_MIN`, fx, OPEN: lower clamp of the increment and decrement commands. -/
  spMin : Word
  /-- `SP_MAX`, fx, OPEN: upper clamp of the increment and decrement commands. -/
  spMax : Word
  deriving DecidableEq, Repr

/-- DESIGN CHOICE (log 2): the parameters of `State.reset`. The spec takes no value for the four OPEN ones. These
are the configuration of spec/95_test_vectors.md section 4.1, and `HALF_CYCLE_MS` is R7's 10. No statement of the
model rests on them. -/
def Config.reference : Config where
  sampleMs := 100
  periodMs := 200
  halfCycleMs := 10
  spMin := 0
  spMax := 0x00640000

end Sys2Proof
end

