-- ==== Sys2Proof/Syntax.lean ====
section
/-! DEFINITION. The nine commands of spec/30_encoding.md R83, the block's "instructions" (spec/00_scope.md R2, R3):
one constructor per row of spec/opcode_table.json, with the operands the row takes. -/

namespace Sys2Proof

/-- A command. Each operand is the 32-bit field unchanged (R82): `fx` operands are read with `toInt`, the
register index with `toNat`. The fields a command does not take are no part of it (R85). -/
inductive Instr where
  /-- `GET_REG idx` (R160). -/
  | getReg (idx : Word)
  /-- `PID_EVAL` (R105, R106). -/
  | pidEval
  /-- `PID_SET_GAINS Kp, Ki, Kd` (R108). -/
  | pidSetGains (gainP gainI gainD : Word)
  /-- `PID_SET_LIMITS min, max` (R109). -/
  | pidSetLimits (min max : Word)
  /-- `PID_SET_SETPOINT value` (R110). -/
  | pidSetSetpoint (value : Word)
  /-- `PID_INC_SETPOINT delta` (R111). -/
  | pidIncSetpoint (delta : Word)
  /-- `PID_DEC_SETPOINT delta` (R112). -/
  | pidDecSetpoint (delta : Word)
  /-- `HTR_START` (R133). -/
  | htrStart
  /-- `HTR_STOP` (R134). -/
  | htrStop
  deriving DecidableEq, Repr

end Sys2Proof
end

