-- ==== Sys2Proof/WellFormed.lean ====
section
/-! DEFINITION. What the spec checks of a command word before any meaning runs: legality of the word
(spec/30_encoding.md R84). Written straight from R81 and R83, apart from the decoder, so that the two can be
compared. -/

namespace Sys2Proof

/-- The nine opcode values of R83. -/
def definedOpcodes : List Nat := [0x01, 0x10, 0x11, 0x12, 0x13, 0x14, 0x15, 0x20, 0x21]

/-- First check of R84: `OPC`, bits 127:120, is one of the nine values. -/
def opcDefined (w : CmdWord) : Bool := definedOpcodes.contains (w.toNat / 2 ^ 120)

/-- Second check of R84: `RSV`, bits 119:96, is zero. -/
def rsvClear (w : CmdWord) : Bool := w.toNat / 2 ^ 96 % 2 ^ 24 == 0

/-- A legal command word (R84). -/
def legalWord (w : CmdWord) : Bool := opcDefined w && rsvClear w

/-- Every command is well-formed: R82 takes each 32-bit operand field unchanged, and no operand value is an illegal
encoding (an operand the command does not accept is refused by its meaning, R172). Spelled per constructor so that
a new one cannot slip past. -/
def Instr.wellFormed : Instr → Bool
  | .getReg _ => true
  | .pidEval => true
  | .pidSetGains _ _ _ => true
  | .pidSetLimits _ _ => true
  | .pidSetSetpoint _ => true
  | .pidIncSetpoint _ => true
  | .pidDecSetpoint _ => true
  | .htrStart => true
  | .htrStop => true

end Sys2Proof
end

