-- ==== Sys2Proof/Decode.lean ====
section
/-! DEFINITION. The decoder of spec/30_encoding.md R80 to R85, total on every 128-bit word, and the encoder after
it, which writes the canonical encoding of R85. Last, the serial carriage of a word (R87, spec/20_memory.md R62). -/

namespace Sys2Proof

/-! ### The fields of a command word (R81) -/

/-- `OPC`, bits 127:120. -/
def opcField (w : CmdWord) : BitVec 8 := w.extractLsb' 120 8
/-- `RSV`, bits 119:96. -/
def rsvField (w : CmdWord) : BitVec 24 := w.extractLsb' 96 24
/-- `A0`, bits 95:64. -/
def a0Field (w : CmdWord) : Word := w.extractLsb' 64 32
/-- `A1`, bits 63:32. -/
def a1Field (w : CmdWord) : Word := w.extractLsb' 32 32
/-- `A2`, bits 31:0. -/
def a2Field (w : CmdWord) : Word := w.extractLsb' 0 32

/-! ### Decoding -/

/-- The opcode map (R83) on the fields; `none` for every reserved opcode. Operands from `A0` first, then `A1`,
then `A2` (R82); the fields a command does not take are ignored (R85). -/
def decodeFields (opc : BitVec 8) (a0 a1 a2 : Word) : Option Instr :=
  if opc = 0x01 then some (.getReg a0)
  else if opc = 0x10 then some .pidEval
  else if opc = 0x11 then some (.pidSetGains a0 a1 a2)
  else if opc = 0x12 then some (.pidSetLimits a0 a1)
  else if opc = 0x13 then some (.pidSetSetpoint a0)
  else if opc = 0x14 then some (.pidIncSetpoint a0)
  else if opc = 0x15 then some (.pidDecSetpoint a0)
  else if opc = 0x20 then some .htrStart
  else if opc = 0x21 then some .htrStop
  else none

/-- The decoder. `none` is an illegal word, which the `CMD` step refuses with `E_ILLEGAL` (R84). -/
def decode (w : CmdWord) : Option Instr :=
  if rsvField w = 0 then decodeFields (opcField w) (a0Field w) (a1Field w) (a2Field w) else none

/-! ### Encoding -/

/-- One command word from its fields, `RSV` zero (R81). -/
def assembleFields (opc : BitVec 8) (a0 a1 a2 : Word) : CmdWord :=
  opc ++ (0#24) ++ a0 ++ a1 ++ a2

/-- The canonical encoding: zero in every ignored field (R85). -/
def encode : Instr → CmdWord
  | .getReg idx => assembleFields 0x01 idx 0 0
  | .pidEval => assembleFields 0x10 0 0 0
  | .pidSetGains gainP gainI gainD => assembleFields 0x11 gainP gainI gainD
  | .pidSetLimits min max => assembleFields 0x12 min max 0
  | .pidSetSetpoint value => assembleFields 0x13 value 0 0
  | .pidIncSetpoint delta => assembleFields 0x14 delta 0 0
  | .pidDecSetpoint delta => assembleFields 0x15 delta 0 0
  | .htrStart => assembleFields 0x20 0 0 0
  | .htrStop => assembleFields 0x21 0 0 0

/-- The word of an instruction whose `nbits` bits are `w`, as spec/opcode_table.json numbers them: the table's rows
are one 128-bit word each, bit 0 the least significant. Bits above `nbits` are zero. No command is longer than
128 bits (R80), so a longer one is no word (log 16). -/
def tableWord (nbits w : Nat) : Option CmdWord :=
  if nbits ≤ 128 then some (BitVec.ofNat 128 (w % 2 ^ nbits)) else none

/-- The decoder on an opcode-table row's bits. -/
def decodeTableWord (nbits w : Nat) : Option Instr := (tableWord nbits w).bind decode

/-! ### Serial carriage (R62, R87): most significant byte first. Outside the block; log 18. -/

/-- The `n` bytes of a value, most significant first. -/
def serialBytes : Nat → Nat → List Byte
  | 0, _ => []
  | n + 1, v => BitVec.ofNat 8 (v / 256 ^ n) :: serialBytes n v

/-- The value of bytes that arrive most significant first. -/
def serialValue (bytes : List Byte) : Nat := bytes.foldl (fun acc b => acc * 256 + b.toNat) 0

/-- A command word on a byte link: bits 127:120 first, bits 7:0 last (R87). -/
def serialOfWord (w : CmdWord) : List Byte := serialBytes 16 w.toNat

/-- The block sees the word only when all 16 bytes have arrived (R87). -/
def wordOfSerial (bytes : List Byte) : Option CmdWord :=
  if bytes.length = 16 then some (BitVec.ofNat 128 (serialValue bytes)) else none

end Sys2Proof
end

