-- ==== Sys2Proof/Machine/Parameters.lean ====
section
/-! DEFINITION. The check the block makes of its parameters when reset is released (spec/00_scope.md R8). -/

namespace Sys2Proof

/-- R8: the block is in configuration fault mode unless this holds. No relation between `SAMPLE_MS` and
`PERIOD_MS`, and no divisibility, is checked. -/
def Config.valid (c : Config) : Bool :=
  c.sampleMs != 0 && c.periodMs != 0 && c.halfCycleMs != 0
    && decide (0 ≤ c.spMin.toInt) && decide (c.spMin.toInt ≤ c.spMax.toInt)

end Sys2Proof
end

