-- ==== Sys2Proof/Machine/State.lean ====
section
/-! DEFINITION. Everything the spec gives the machine (spec/10_state.md), as plain data: ControllerState, HeaterState,
the control and hidden state, the response port, the static configuration, and the inputs other agents present.
There is no byte memory and no program counter (spec/00_scope.md R12, spec/10_state.md R34; log 11). -/

namespace Sys2Proof.Machine

/-- The ten registers of the PID unit (R20). `fx` registers hold two's-complement patterns, read with `toInt`. -/
structure ControllerState where
  setpoint : Word
  kp : Word
  ki : Word
  kd : Word
  outMin : Word
  outMax : Word
  integral : Word
  lastInput : Word
  output : Word
  lastTime : Word
  deriving DecidableEq, Repr

/-- Where the actuator loop stands (R34). Codes 6 and 7 are never taken, so the type has six values (W5). -/
inductive Phase where
  | stopped
  | onReq
  | onWait
  | offReq
  | offWait
  | finalReq
  deriving DecidableEq, Repr

/-- The actuator's registers and wires (R30). -/
structure HeaterState where
  phase : Phase
  onMs : Word
  offMs : Word
  tRem : Word
  onTime : Word
  tWr : Word
  stopFlag : Bool
  /-- The block's belief of the relay (R31). -/
  relayState : Bool
  /-- The output wire the relay sink sees (R31). -/
  relayLevel : Bool
  /-- The output wire: a relay write is pending. -/
  relayReq : Bool
  deriving DecidableEq, Repr

/-- The causes of a refused command (R172), one sticky bit of `ERR` each (R38). -/
inductive ErrCode where
  | illegal
  | arg
  | range
  | fault
  | busy
  deriving DecidableEq, Repr

/-- The status of a response (R93). No other code is ever produced (W7). -/
inductive RspCode where
  | ok
  | okCached
  | err (c : ErrCode)
  deriving DecidableEq, Repr

/-- A response, `(RSP_STATUS, RSP_DATA)` (R92). -/
structure Response where
  status : RspCode
  data : Word
  deriving DecidableEq, Repr

/-- The names of the 24 mapped registers of the register index space (R61). -/
inductive Reg where
  | setpoint | kp | ki | kd | outMin | outMax | integral | lastInput | output | lastTime
  | time | status | err | sampleMs | spMin | spMax
  | phase | onMs | offMs | tRem | onTime | periodMs | halfCycleMs | tWr
  deriving DecidableEq, Repr

/-- What the input wires of R41 carry in one clock cycle: which events arrive, and with what (R13). A field is
cleared when its event is taken. -/
structure Wires where
  /-- `RESET` asserted, with the static configuration inputs sampled as reset is released (R7, R200). -/
  reset : Option Config
  /-- `TICK`. -/
  tick : Bool
  /-- `RELAY_ACK`. -/
  relayAck : Bool
  /-- `QRY_VALID` and `QRY_DATA`. -/
  qryRsp : Option Word
  /-- `CMD_VALID` and `CMD_WORD`: the word the host presents, which waits while `CMD_READY` is 0 (R86). -/
  cmd : Option CmdWord
  deriving DecidableEq, Repr

/-- One event, the cause of one step (R13). -/
inductive Event where
  | reset (cfg : Config)
  | tick
  | relayAck
  | qryRsp (v : Word)
  | cmd (w : CmdWord)
  deriving DecidableEq, Repr

/-- Nothing presented on any input wire. -/
def Wires.idle : Wires := { reset := none, tick := false, relayAck := false, qryRsp := none, cmd := none }

/-- The machine. -/
structure State where
  /-- ControllerState (R20). -/
  ctl : ControllerState
  /-- HeaterState (R30). -/
  htr : HeaterState
  /-- `TIME` (R36). -/
  time : Word
  /-- `ERR`, the sticky flags, kept whole (R38; log 19). -/
  err : Word
  /-- `CFG_FAULT`, fixed from reset to reset (R37, R176; log 12). -/
  cfgFault : Bool
  /-- `EVAL_PENDING` (R40). -/
  evalPending : Bool
  /-- `T0`, the acceptance time of the evaluation in flight (R40). -/
  t0 : Word
  /-- `QRY_REQ`, the query port's request wire (R40; log 12). -/
  qryReq : Bool
  /-- The static configuration inputs (R7, R39; log 2). -/
  cfg : Config
  /-- The response port: `none` exactly when `RSP_VALID` = 0 (R92; log 5). -/
  rsp : Option Response
  /-- The model's own: events of the current clock cycle not yet taken, and a waiting command word (log 1, log 6). -/
  wires : Wires
  /-- The model's own: what the wires carry in the clock cycles to come (log 1). -/
  arrivals : List Wires
  deriving DecidableEq, Repr

/-- Why a step stops. -/
inductive Fault where
  /-- Raised by the `QRY_RSP` step when no query is pending: "a fault of the environment, not a behaviour of the
  block; the model gives it no step" (R180). No instruction raises it. Safe: the model stops (log 4). -/
  | qryRspNotEnabled
  /-- Raised by the `RELAY_ACK` step when no relay write is pending: the model gives it no step (R181). No
  instruction raises it. Safe: the model stops (log 4). -/
  | relayAckNotEnabled
  deriving DecidableEq, Repr

/-- Why an instruction has no meaning in the model. -/
inductive Refusal where
  /-- Raised by an arm of `exec` whose instruction has no meaning yet. Safe: the model stops. No arm is left so. -/
  | notModelled (mnemonic : String)
  deriving DecidableEq, Repr

/-- ControllerState after reset (R20, R200). -/
def ControllerState.reset : ControllerState where
  setpoint := 0
  kp := 0
  ki := 0
  kd := 0
  outMin := 0
  outMax := 0x00010000
  integral := 0
  lastInput := 0
  output := 0
  lastTime := 0

/-- HeaterState after reset (R30, R200). -/
def HeaterState.reset : HeaterState where
  phase := .stopped
  onMs := 0
  offMs := 0
  tRem := 0
  onTime := 0
  tWr := 0
  stopFlag := true
  relayState := false
  relayLevel := false
  relayReq := false

/-- The block as it leaves reset with the parameters `cfg` (R43, R200), nothing presented on its inputs. -/
def State.afterReset (cfg : Config) : State where
  ctl := ControllerState.reset
  htr := HeaterState.reset
  time := 0
  err := 0
  cfgFault := !cfg.valid
  evalPending := false
  t0 := 0
  qryReq := false
  cfg := cfg
  rsp := none
  wires := Wires.idle
  arrivals := []

/-- The machine right after reset. Every register has the spec's value; the parameters are the model's choice
(DESIGN CHOICE, log 2), and no input is presented (DESIGN CHOICE, log 1). -/
def State.reset : State := State.afterReset Config.reference

end Sys2Proof.Machine
end

