-- ==== Sys2Proof/Machine/Flags.lean ====
section
/-! DEFINITION. Every flag computation of the spec: the bits of `ERR` (spec/10_state.md R38), the numeric response
codes (spec/30_encoding.md R93), the code of `PHASE` (R34), the layout of `STATUS` (R37) and `CMD_READY` (R86). -/

namespace Sys2Proof.Machine

/-- The bit of `ERR` a refusal sets (R38). -/
def errBit : ErrCode → Word
  | .illegal => 0x00000001
  | .arg => 0x00000002
  | .range => 0x00000004
  | .fault => 0x00000008
  | .busy => 0x00000010

/-- `RSP_STATUS[7:0]` (R93). -/
def statusByte : RspCode → Byte
  | .ok => 0x00
  | .okCached => 0x01
  | .err .illegal => 0x80
  | .err .arg => 0x81
  | .err .range => 0x82
  | .err .fault => 0x83
  | .err .busy => 0x84

/-- The 3-bit code of `PHASE` (R34). -/
def phaseCode : Phase → BitVec 3
  | .stopped => 0
  | .onReq => 1
  | .onWait => 2
  | .offReq => 3
  | .offWait => 4
  | .finalReq => 5

/-- A one-bit field at bit `n` of a 32-bit word. -/
def flagAt (n : Nat) (b : Bool) : Word := (BitVec.ofBool b).setWidth 32 <<< n

/-- `STATUS`, a view of other state (R37). -/
def statusWord (s : State) : Word :=
  flagAt 0 s.cfgFault
    ||| flagAt 1 s.evalPending
    ||| flagAt 2 (s.htr.phase != .stopped)
    ||| flagAt 3 s.htr.stopFlag
    ||| flagAt 4 s.htr.relayState
    ||| flagAt 5 s.htr.relayLevel
    ||| flagAt 6 s.htr.relayReq

/-- `CMD_READY`: 1 exactly when `EVAL_PENDING` = 0 and the block is not held in reset (R86). -/
def cmdReady (s : State) : Bool := !s.evalPending && s.wires.reset.isNone

end Sys2Proof.Machine
end

