-- ==== Sys2Proof/Machine/Operands.lean ====
section
/-! DEFINITION. Operand forms: the integer primitives of spec/00_scope.md R9 to R11, the narrowing of a result to a
register, and the register index space of spec/20_memory.md R61, which is the only operand that names state. -/

namespace Sys2Proof.Machine

/-! ### Integers (R9, R11) -/

/-- `floor_div(a, b)`: rounds toward minus infinity for `b > 0` (R11). Lean's `/` on integers is this for `b > 0`;
no rule divides by anything else outside configuration fault mode (R102; log 10). -/
def floorDiv (a b : Int) : Int := a / b

/-- `ceil_div(a, b)` for `b > 0`: the least `q` with `q · b ≥ a` (R11). -/
def ceilDiv (a b : Int) : Int := -((-a) / b)

/-- `clamp(v, lo, hi)` for `lo ≤ hi` (R11). -/
def clamp (v lo hi : Int) : Int := if v < lo then lo else if hi < v then hi else v

/-- `a ∸ b` on unsigned words (R11). -/
def monus (a b : Word) : Word := if b.toNat ≤ a.toNat then a - b else 0

/-- `u32(v)` of an integer, as a register's pattern (R9). -/
def u32 (v : Int) : Word := BitVec.ofInt 32 v

/-- Does a raw value fit a register of kind `fx`: −2^31 to 2^31−1 (R10)? -/
def fitsFx (v : Int) : Bool := decide (-2147483648 ≤ v) && decide (v ≤ 2147483647)

/-! ### The register index space (R61) -/

/-- The index of each mapped register (R61). -/
def regIndex : Reg → Word
  | .setpoint => 0x00
  | .kp => 0x01
  | .ki => 0x02
  | .kd => 0x03
  | .outMin => 0x04
  | .outMax => 0x05
  | .integral => 0x06
  | .lastInput => 0x07
  | .output => 0x08
  | .lastTime => 0x09
  | .time => 0x10
  | .status => 0x11
  | .err => 0x12
  | .sampleMs => 0x13
  | .spMin => 0x14
  | .spMax => 0x15
  | .phase => 0x20
  | .onMs => 0x21
  | .offMs => 0x22
  | .tRem => 0x23
  | .onTime => 0x24
  | .periodMs => 0x25
  | .halfCycleMs => 0x26
  | .tWr => 0x27

/-- Every mapped register. -/
def allRegs : List Reg :=
  [.setpoint, .kp, .ki, .kd, .outMin, .outMax, .integral, .lastInput, .output, .lastTime,
   .time, .status, .err, .sampleMs, .spMin, .spMax,
   .phase, .onMs, .offMs, .tRem, .onTime, .periodMs, .halfCycleMs, .tWr]

/-- The register an index names; `none` for an unmapped index (R61). -/
def regOfIndex (idx : Word) : Option Reg := allRegs.find? fun r => regIndex r == idx

/-- `value(idx)` of R160: the register's 32-bit pattern, `PHASE` zero-extended (R64). -/
def readReg (s : State) : Reg → Word
  | .setpoint => s.ctl.setpoint
  | .kp => s.ctl.kp
  | .ki => s.ctl.ki
  | .kd => s.ctl.kd
  | .outMin => s.ctl.outMin
  | .outMax => s.ctl.outMax
  | .integral => s.ctl.integral
  | .lastInput => s.ctl.lastInput
  | .output => s.ctl.output
  | .lastTime => s.ctl.lastTime
  | .time => s.time
  | .status => statusWord s
  | .err => s.err
  | .sampleMs => s.cfg.sampleMs
  | .spMin => s.cfg.spMin
  | .spMax => s.cfg.spMax
  | .phase => (phaseCode s.htr.phase).setWidth 32
  | .onMs => s.htr.onMs
  | .offMs => s.htr.offMs
  | .tRem => s.htr.tRem
  | .onTime => s.htr.onTime
  | .periodMs => s.cfg.periodMs
  | .halfCycleMs => s.cfg.halfCycleMs
  | .tWr => s.htr.tWr

end Sys2Proof.Machine
end

