-- ==== Sys2Proof/Machine/Ops.lean ====
section
/-! DEFINITION. The shared operations over the state: a response (spec/30_encoding.md R92), a refusal, which is the
block's exception (spec/60_exceptions.md R171), the configuration fault check every command but `GET_REG` passes
(R173, R176), the start of a relay write (spec/20_memory.md R67), and the reset step
(spec/70_reset_and_hazards.md R200). A refusal saves nothing and there is nothing to return from (R175). -/

namespace Sys2Proof.Machine

/-- The outcome of a step or of a command. -/
abbrev Result := Host.Outcome State Fault Refusal

/-- `respond(code, data)` (R92). -/
def respond (code : RspCode) (data : Word) (s : State) : State :=
  { s with rsp := some { status := code, data := data } }

/-- `refuse(code)`: the sticky bit and the response `(code, 0)`, nothing else (R171). -/
def refuse (c : ErrCode) (s : State) : State :=
  respond (.err c) 0 { s with err := s.err ||| errBit c }

/-- Check (2) of R173: in configuration fault mode the command is refused with `E_FAULT`; else it is carried out. -/
def unlessCfgFault (s : State) (carriedOut : State) : State :=
  if s.cfgFault then refuse .fault s else carriedOut

/-- `RelayWrite(level)`: the wire, the request and the time stamp (R67). The phase is its caller's. -/
def relayWrite (level : Bool) (s : State) : State :=
  { s with htr := { s.htr with relayLevel := level, relayReq := true, tWr := s.time } }

/-- Move the actuator loop to a phase. -/
def setPhase (p : Phase) (s : State) : State := { s with htr := { s.htr with phase := p } }

/-- Enter a wait of `ms` milliseconds in phase `p` (R136, R137). -/
def startWait (p : Phase) (ms : Word) (s : State) : State :=
  { s with htr := { s.htr with tRem := ms, phase := p } }

/-- The latency of a relay write: `u32(TIME − T_WR)` (R67, R138). -/
def relayLatency (s : State) : Word := s.time - s.htr.tWr

/-- The `RESET` step (R200): every register at its reset value under the parameters sampled as reset is released;
everything waiting or in flight is abandoned, and the other events of the cycle are dropped (R184). What the
platform's wires carry in later cycles is not the block's to forget (log 13). -/
def resetStep (cfg : Config) (s : State) : State :=
  { State.afterReset cfg with arrivals := s.arrivals }

end Sys2Proof.Machine
end

