-- ==== Sys2Proof/Machine/Heater.lean ====
section
/-! DEFINITION. The heater actuator unit (spec/41_heater_actuator.md): the quantizer, the chained procedures of the
loop, its two commands, and the `TICK` and `RELAY_ACK` steps. -/

namespace Sys2Proof.Machine

/-! ### The quantizer (R131) -/

/-- The on-interval of `quantize(d)` in milliseconds, exact. -/
def quantizeOn (c : Config) (d : Int) : Int :=
  let num := d * c.periodMs.toNat
  let den := c.halfCycleMs.toNat * fxOne
  if num < den then 0 else min (c.periodMs.toNat : Int) (ceilDiv num den * c.halfCycleMs.toNat)

/-- The budgets of a period with duty `d`: `ON_MS` and `OFF_MS = PERIOD_MS − ON_MS` (R131). -/
def setBudgets (d : Int) (s : State) : State :=
  { s with htr :=
    { s.htr with
      onMs := u32 (quantizeOn s.cfg d)
      offMs := u32 (s.cfg.periodMs.toNat - quantizeOn s.cfg d) } }

/-! ### The chained procedures (R135 to R137) -/

/-- Start the write that turns the relay on, and wait for its acknowledgement (R136). -/
def requestOn (s : State) : State := setPhase .onReq (relayWrite true s)

/-- Start the write that turns the relay off, and wait for its acknowledgement (R137). -/
def requestOff (s : State) : State := setPhase .offReq (relayWrite false s)

/-- The forced-off write of a shutdown, made without consulting `RELAY_STATE` (R142). -/
def requestFinalOff (s : State) : State := setPhase .finalReq (relayWrite false s)

/-- `on_entry()` for a non-zero on-interval (R136). -/
def beginOn (s : State) : State :=
  if s.htr.relayState then startWait .onWait s.htr.onMs s else requestOn s

/-- `off_entry()` for a non-zero off-interval (R137). -/
def beginOff (s : State) : State :=
  if s.htr.relayState then requestOff s else startWait .offWait s.htr.offMs s

/-- The procedures of the loop, by name. -/
inductive Proc where
  | periodStart
  | onEntry
  | offEntry
  deriving DecidableEq, Repr

/-- At most `n` calls of the mutually recursive `period_start`, `on_entry`, `off_entry` (R135 to R137), all inside
one step. R140 proves that four calls are enough whenever `PERIOD_MS ≥ 1`; with the calls used up the state stays
as it is (log 9). -/
def chain : Nat → Proc → State → State
  | 0, _, s => s
  | n + 1, .periodStart, s =>
    if s.htr.stopFlag then requestFinalOff s else chain n .onEntry (setBudgets s.ctl.output.toInt s)
  | n + 1, .onEntry, s => if s.htr.onMs = 0 then chain n .offEntry s else beginOn s
  | n + 1, .offEntry, s => if s.htr.offMs = 0 then chain n .periodStart s else beginOff s

/-- `period_start()` (R135). -/
def periodStart (s : State) : State := chain 4 .periodStart s

/-- `off_entry()` (R137). -/
def offEntry (s : State) : State := chain 4 .offEntry s

/-! ### The commands -/

/-- `HTR_START` (R133). -/
def execHtrStart (s : State) : Result :=
  .next (unlessCfgFault s
    (if s.htr.phase = .stopped then
      periodStart (respond .ok 0 { s with htr := { s.htr with stopFlag := false } })
    else refuse .busy s))

/-- `HTR_STOP` (R134): only the flag. -/
def execHtrStop (s : State) : Result :=
  .next (unlessCfgFault s (respond .ok 0 { s with htr := { s.htr with stopFlag := true } }))

/-! ### The `TICK` step (R139) -/

/-- The first two lines of R139: `ON_TIME` counts the relay state before the step, `TIME` counts the tick. -/
def countTick (s : State) : State :=
  { s with
    time := s.time + 1
    htr := { s.htr with onTime := s.htr.onTime + (BitVec.ofBool s.htr.relayState).setWidth 32 } }

/-- One millisecond of a wait passes (R139). In the wait phases `T_REM ≥ 1` in every reachable state (R33). -/
def countDown (s : State) : State := { s with htr := { s.htr with tRem := s.htr.tRem - 1 } }

/-- The `TICK` step (R139). -/
def tickStep (s : State) : State :=
  let t := countTick s
  match t.htr.phase with
  | .onWait => let u := countDown t; if u.htr.tRem = 0 then offEntry u else u
  | .offWait => let u := countDown t; if u.htr.tRem = 0 then periodStart u else u
  | .stopped => t
  | .onReq => t
  | .offReq => t
  | .finalReq => t

/-! ### The `RELAY_ACK` step (R138) -/

/-- `RELAY_REQ <- 0`, and the belief takes the level written (R138). -/
def relayDone (level : Bool) (s : State) : State :=
  { s with htr := { s.htr with relayReq := false, relayState := level } }

/-- The body of R138 once the acknowledgement is enabled. The remaining wait is the budget less the latency, not
below zero (D12). In the phases without a pending write R138 gives only its first line; they are not reachable
with `RELAY_REQ` = 1 (log 10). -/
def acknowledge (s : State) : State :=
  match s.htr.phase with
  | .onReq =>
    let rem := monus s.htr.onMs (relayLatency s)
    if rem = 0 then offEntry (startWait .onReq rem (relayDone true s)) else startWait .onWait rem (relayDone true s)
  | .offReq =>
    let rem := monus s.htr.offMs (relayLatency s)
    if rem = 0 then periodStart (startWait .offReq rem (relayDone false s)) else startWait .offWait rem (relayDone false s)
  | .finalReq => setPhase .stopped (relayDone false s)
  | .stopped => relayDone s.htr.relayState s
  | .onWait => relayDone s.htr.relayState s
  | .offWait => relayDone s.htr.relayState s

/-- The `RELAY_ACK` step: enabled only while a relay write is pending (R181; log 4). -/
def relayAckStep (s : State) : Result :=
  if s.htr.relayReq then .next (acknowledge s) else .fault .relayAckNotEnabled

end Sys2Proof.Machine
end

