-- ==== Sys2Proof/Machine/Pid.lean ====
section
/-! DEFINITION. The PID unit's commands and the completion of an evaluation (spec/40_pid_commands.md), on exact
integers (R102, R103). The derivative term takes `KD` (spec/90_conflicts.md C1). -/

namespace Sys2Proof.Machine

/-! ### The evaluation (R105, R106) -/

/-- `elapsed = u32(TIME − LAST_TIME)` (R105). -/
def elapsed (s : State) : Word := s.time - s.ctl.lastTime

/-- `INTEGRAL'` of R106 for the input sample `inp`: clamp after one rounding. -/
def newIntegral (c : ControllerState) (inp : Int) : Int :=
  clamp (c.integral.toInt + floorDiv (c.ki.toInt * (c.setpoint.toInt - inp)) fxOne) c.outMin.toInt c.outMax.toInt

/-- `acc` of R106, with 32 fraction bits; `LAST_INPUT` is the value before the step. -/
def evalAcc (c : ControllerState) (inp : Int) : Int :=
  c.kp.toInt * (c.setpoint.toInt - inp) + newIntegral c inp * fxOne - c.kd.toInt * (inp - c.lastInput.toInt)

/-- `OUTPUT'` of R106. -/
def newOutput (c : ControllerState) (inp : Int) : Int :=
  clamp (floorDiv (evalAcc c inp) fxOne) c.outMin.toInt c.outMax.toInt

/-- What an evaluation writes in ControllerState; `LAST_TIME` takes the acceptance time (R106, R27). -/
def evaluated (c : ControllerState) (v t0 : Word) : ControllerState :=
  { c with
    integral := u32 (newIntegral c v.toInt)
    output := u32 (newOutput c v.toInt)
    lastInput := v
    lastTime := t0 }

/-- Completion of `PID_EVAL` by `QRY_RSP(v)` (R106). -/
def completeEval (v : Word) (s : State) : State :=
  respond .ok (u32 (newOutput s.ctl v.toInt))
    { s with ctl := evaluated s.ctl v s.t0, evalPending := false, qryReq := false }

/-- The `QRY_RSP(v)` step: enabled only while an evaluation is pending (R180; log 4). -/
def qryRspStep (v : Word) (s : State) : Result :=
  if s.evalPending then .next (completeEval v s) else .fault .qryRspNotEnabled

/-- Acceptance of an effective evaluation: the query opens and the command port closes (R105). -/
def openQuery (s : State) : State := { s with evalPending := true, t0 := s.time, qryReq := true }

/-- `PID_EVAL`, first step (R105). -/
def execPidEval (s : State) : Result :=
  .next (unlessCfgFault s
    (if (elapsed s).toNat < s.cfg.sampleMs.toNat then respond .okCached s.ctl.output s else openQuery s))

/-! ### Gains (R108) -/

/-- `ki = Ki · Ts`, `Ts = SAMPLE_MS / 1000` seconds (R101, R108). -/
def scaledKi (c : Config) (gainI : Word) : Int := floorDiv (gainI.toInt * c.sampleMs.toNat) 1000

/-- `kd = Kd / Ts` (R101, R108). -/
def scaledKd (c : Config) (gainD : Word) : Int := floorDiv (gainD.toInt * 1000) c.sampleMs.toNat

/-- `PID_SET_GAINS Kp, Ki, Kd` (R108): all three gains or none. -/
def execPidSetGains (gainP gainI gainD : Word) (s : State) : Result :=
  .next (unlessCfgFault s
    (if fitsFx (scaledKi s.cfg gainI) && fitsFx (scaledKd s.cfg gainD) then
      respond .ok 0
        { s with ctl := { s.ctl with kp := gainP, ki := u32 (scaledKi s.cfg gainI), kd := u32 (scaledKd s.cfg gainD) } }
    else refuse .range s))

/-! ### Limits (R109) -/

/-- ControllerState with new bounds, `INTEGRAL` and `OUTPUT` re-clamped into them (R109). -/
def withLimits (lo hi : Word) (c : ControllerState) : ControllerState :=
  { c with
    outMin := lo
    outMax := hi
    integral := u32 (clamp c.integral.toInt lo.toInt hi.toInt)
    output := u32 (clamp c.output.toInt lo.toInt hi.toInt) }

/-- `PID_SET_LIMITS min, max` (R109). -/
def execPidSetLimits (lo hi : Word) (s : State) : Result :=
  .next (unlessCfgFault s
    (if hi.toInt < lo.toInt then refuse .arg s
    else respond .ok (withLimits lo hi s.ctl).output { s with ctl := withLimits lo hi s.ctl }))

/-! ### Setpoint (R110 to R112) -/

/-- Write `SETPOINT` and respond with it (R94). -/
def storeSetpoint (v : Word) (s : State) : State :=
  respond .ok v { s with ctl := { s.ctl with setpoint := v } }

/-- Write `SETPOINT` clamped to `[SP_MIN, SP_MAX]` from an exact value (R111, R112). -/
def storeClampedSetpoint (v : Int) (s : State) : State :=
  storeSetpoint (u32 (clamp v s.cfg.spMin.toInt s.cfg.spMax.toInt)) s

/-- `PID_SET_SETPOINT value` (R110): refused if negative, not clamped. -/
def execPidSetSetpoint (value : Word) (s : State) : Result :=
  .next (unlessCfgFault s (if value.toInt < 0 then refuse .arg s else storeSetpoint value s))

/-- `PID_INC_SETPOINT delta` (R111). -/
def execPidIncSetpoint (delta : Word) (s : State) : Result :=
  .next (unlessCfgFault s (storeClampedSetpoint (s.ctl.setpoint.toInt + delta.toInt) s))

/-- `PID_DEC_SETPOINT delta` (R112). -/
def execPidDecSetpoint (delta : Word) (s : State) : Result :=
  .next (unlessCfgFault s (storeClampedSetpoint (s.ctl.setpoint.toInt - delta.toInt) s))

end Sys2Proof.Machine
end

