-- ==== Sys2Proof/Machine/System.lean ====
section
/-! DEFINITION. The system command (spec/42_system_commands.md). -/

namespace Sys2Proof.Machine

/-- `GET_REG idx` (R160). Not refused in configuration fault mode. -/
def execGetReg (idx : Word) (s : State) : Result :=
  match regOfIndex idx with
  | some r => .next (respond .ok (readReg s r) s)
  | none => .next (refuse .arg s)

end Sys2Proof.Machine
end

