-- ==== Sys2Proof/Machine/Dispatch.lean ====
section
/-! DEFINITION. One arm per command: its meaning, with checks (2) and (3) of spec/60_exceptions.md R173 inside. -/

namespace Sys2Proof.Machine

def exec (i : Instr) (s : State) : Host.Outcome State Fault Refusal :=
  match i with
  | .getReg idx => Sys2Proof.Machine.execGetReg idx s
  | .pidEval => Sys2Proof.Machine.execPidEval s
  | .pidSetGains gainP gainI gainD => Sys2Proof.Machine.execPidSetGains gainP gainI gainD s
  | .pidSetLimits lo hi => Sys2Proof.Machine.execPidSetLimits lo hi s
  | .pidSetSetpoint value => Sys2Proof.Machine.execPidSetSetpoint value s
  | .pidIncSetpoint delta => Sys2Proof.Machine.execPidIncSetpoint delta s
  | .pidDecSetpoint delta => Sys2Proof.Machine.execPidDecSetpoint delta s
  | .htrStart => Sys2Proof.Machine.execHtrStart s
  | .htrStop => Sys2Proof.Machine.execHtrStop s

end Sys2Proof.Machine
end

