-- ==== Sys2Proof/Machine/Events.lean ====
section
/-! DEFINITION. Events and their order (spec/00_scope.md R13, spec/60_exceptions.md R178 to R184): which event the
next step takes, taking it off the wires, the `CMD` step, and the end of a clock cycle. -/

namespace Sys2Proof.Machine

/-- A word at the command port is an event only while `CMD_READY` = 1; else it waits (R86, R182). -/
def cmdEvent (s : State) : Option Event :=
  if cmdReady s then s.wires.cmd.map .cmd else none

/-- The event the next step takes, in the fixed order of R184: `RESET` alone; otherwise `TICK`, `RELAY_ACK`,
`QRY_RSP`, `CMD`. -/
def nextEvent (s : State) : Option Event :=
  match s.wires.reset, s.wires.tick, s.wires.relayAck, s.wires.qryRsp with
  | some cfg, _, _, _ => some (.reset cfg)
  | none, true, _, _ => some .tick
  | none, false, true, _ => some .relayAck
  | none, false, false, some v => some (.qryRsp v)
  | none, false, false, none => cmdEvent s

/-- An event is off its wire once it is taken. -/
def Wires.without (w : Wires) : Event → Wires
  | .reset _ => Wires.idle
  | .tick => { w with tick := false }
  | .relayAck => { w with relayAck := false }
  | .qryRsp _ => { w with qryRsp := none }
  | .cmd _ => { w with cmd := none }

/-- The state a step's rule starts from: its event taken, and the response of an earlier step no longer valid
(R92; log 5). -/
def takeEvent (e : Event) (s : State) : State := { s with wires := s.wires.without e, rsp := none }

/-- The `CMD(word)` step: check (1) of R173, then the command's meaning. -/
def cmdStep (w : CmdWord) (s : State) : Result :=
  match decode w with
  | some i => exec i s
  | none => .next (refuse .illegal s)

/-- The rule of an event, from the state that has taken it. -/
def eventStep (e : Event) (s : State) : Result :=
  match e with
  | .reset cfg => .next (resetStep cfg s)
  | .tick => .next (tickStep s)
  | .relayAck => relayAckStep s
  | .qryRsp v => qryRspStep v s
  | .cmd w => cmdStep w s

/-- No event is left in this clock cycle: the next one begins. A word still waiting at the command port stays there
unless the host drives another (R86, W11; log 6). With nothing to come the block is idle (R191; log 7). -/
def nextCycle (s : State) : State :=
  match s.arrivals with
  | [] => { s with rsp := none }
  | c :: rest => { s with rsp := none, wires := { c with cmd := c.cmd.or s.wires.cmd }, arrivals := rest }

/-- The wires with one command word and nothing else. -/
def Wires.command (w : CmdWord) : Wires := { Wires.idle with cmd := some w }

/-- A state whose next step takes the command word `w`: the word alone on the wires, the command port open
(log 8). -/
def presentCommand (w : CmdWord) (s : State) : State :=
  { s with wires := Wires.command w, evalPending := false, qryReq := false }

end Sys2Proof.Machine
end

