-- ==== Sys2Proof/Machine/Step.lean ====
section
/-! DEFINITION. One step (spec/00_scope.md R13): the event R184 selects is taken and its rule runs; with no event
the clock cycle ends. -/

namespace Sys2Proof.Machine

def step (s : State) : Host.Outcome State Fault Refusal :=
  match nextEvent s with
  | some e => eventStep e (takeEvent e s)
  | none => .next (nextCycle s)

/-- The block fetches nothing (R2): a command reaches it on the command port, so the word is placed there, alone on
the wires and with the port open (log 8). A row's bits above `nbits` are zero; bits past 128 do not exist
(R80; log 16). -/
def State.withFetchWord (s : State) (nbits w : Nat) : State :=
  presentCommand ((tableWord nbits w).getD (BitVec.ofNat 128 w)) s

end Sys2Proof.Machine
end

