-- ==== Sys2Proof/Machine/Assembler.lean ====
section
/-! DEFINITION. The assembler syntax of spec/30_encoding.md R95 to R97: the text of a command, `fx` literals, and the
three directives that stand for events of other agents. Outside the block; nothing in `step` uses it (log 17). -/

namespace Sys2Proof.Machine

/-- The `n` hexadecimal digits of a value. -/
def hexDigits : Nat → Nat → List Char
  | 0, _ => []
  | n + 1, v => (Nat.digitChar (v / 16 ^ n % 16)).toUpper :: hexDigits n v

/-- A raw pattern, `#0x` and eight hexadecimal digits (R96). -/
def rawLiteral (v : Word) : String := "#0x" ++ String.ofList (hexDigits 8 v.toNat)

/-- The name of a mapped register (spec/20_memory.md R61). -/
def regName : Reg → String
  | .setpoint => "SETPOINT"
  | .kp => "KP"
  | .ki => "KI"
  | .kd => "KD"
  | .outMin => "OUT_MIN"
  | .outMax => "OUT_MAX"
  | .integral => "INTEGRAL"
  | .lastInput => "LAST_INPUT"
  | .output => "OUTPUT"
  | .lastTime => "LAST_TIME"
  | .time => "TIME"
  | .status => "STATUS"
  | .err => "ERR"
  | .sampleMs => "SAMPLE_MS"
  | .spMin => "SP_MIN"
  | .spMax => "SP_MAX"
  | .phase => "PHASE"
  | .onMs => "ON_MS"
  | .offMs => "OFF_MS"
  | .tRem => "T_REM"
  | .onTime => "ON_TIME"
  | .periodMs => "PERIOD_MS"
  | .halfCycleMs => "HALF_CYCLE_MS"
  | .tWr => "T_WR"

/-- `<reg>`: the register's name, or a number where the index is unmapped (R96). -/
def regText (idx : Word) : String :=
  match regOfIndex idx with
  | some r => regName r
  | none => "0x" ++ String.ofList (hexDigits 8 idx.toNat)

/-- The text of a command (R95), `fx` operands as raw literals. -/
def asmText : Instr → String
  | .getReg idx => "get " ++ regText idx
  | .pidEval => "pid.eval"
  | .pidSetGains gainP gainI gainD =>
    "pid.gains " ++ rawLiteral gainP ++ ", " ++ rawLiteral gainI ++ ", " ++ rawLiteral gainD
  | .pidSetLimits lo hi => "pid.limits " ++ rawLiteral lo ++ ", " ++ rawLiteral hi
  | .pidSetSetpoint value => "pid.sp " ++ rawLiteral value
  | .pidIncSetpoint delta => "pid.spinc " ++ rawLiteral delta
  | .pidDecSetpoint delta => "pid.spdec " ++ rawLiteral delta
  | .htrStart => "htr.start"
  | .htrStop => "htr.stop"

/-- The decimal literal `num / den` as an `fx` operand: `floor(r · 65536)`, rejected outside −2^31 to 2^31−1 (R96). -/
def fxLiteral (num : Int) (den : Nat) : Option Word :=
  if fitsFx (floorDiv (num * fxOne) den) then some (u32 (floorDiv (num * fxOne) den)) else none

/-- The directives of R97. -/
inductive Directive where
  | tick (n : Nat)
  | qry (value : Word)
  | ack
  deriving DecidableEq, Repr

/-- The clock cycles a directive stands for. -/
def directiveCycles : Directive → List Wires
  | .tick n => List.replicate n { Wires.idle with tick := true }
  | .qry value => [{ Wires.idle with qryRsp := some value }]
  | .ack => [{ Wires.idle with relayAck := true }]

end Sys2Proof.Machine
end

