-- ==== Sys2Proof/Safety.lean ====
section
/-! DEFINITION. What counts as a safe state, from the invariants the spec states: spec/40_pid_commands.md R113,
spec/10_state.md R32 to R34, R38, R40, spec/41_heater_actuator.md R142, R144, spec/60_exceptions.md R176. -/

namespace Sys2Proof.Machine

/-- R113: the bounds are ordered, `INTEGRAL` and `OUTPUT` lie in them, `SETPOINT` is not negative. -/
structure ControllerSafe (c : ControllerState) : Prop where
  limits_ordered : c.outMin.toInt ≤ c.outMax.toInt
  integral_above : c.outMin.toInt ≤ c.integral.toInt
  integral_below : c.integral.toInt ≤ c.outMax.toInt
  output_above : c.outMin.toInt ≤ c.output.toInt
  output_below : c.output.toInt ≤ c.outMax.toInt
  setpoint_nonneg : 0 ≤ c.setpoint.toInt

/-- R32: the budgets are those of some period start. -/
structure BudgetsSafe (cfg : Config) (h : HeaterState) : Prop where
  sum_is_period : h.onMs.toNat + h.offMs.toNat = cfg.periodMs.toNat
  on_quantized : h.onMs.toNat = cfg.periodMs.toNat ∨ cfg.halfCycleMs.toNat ∣ h.onMs.toNat

/-- What the relay registers, the wait counter and the stop flag are in each phase (R33, R34, R142, R144). -/
def PhaseSafe (h : HeaterState) : Prop :=
  match h.phase with
  | .stopped => h.stopFlag = true ∧ h.relayState = false ∧ h.relayLevel = false ∧ h.relayReq = false
  | .onReq => h.relayState = false ∧ h.relayLevel = true ∧ h.relayReq = true ∧ 0 < h.onMs.toNat
  | .onWait => h.relayState = true ∧ h.relayLevel = true ∧ h.relayReq = false ∧
      0 < h.tRem.toNat ∧ h.tRem.toNat ≤ h.onMs.toNat
  | .offReq => h.relayState = true ∧ h.relayLevel = false ∧ h.relayReq = true ∧ 0 < h.offMs.toNat
  | .offWait => h.relayState = false ∧ h.relayLevel = false ∧ h.relayReq = false ∧
      0 < h.tRem.toNat ∧ h.tRem.toNat ≤ h.offMs.toNat
  | .finalReq => h.stopFlag = true ∧ h.relayLevel = false ∧ h.relayReq = true

/-- The safe states: every state a run from reset, under any parameters and any inputs, can reach is one. -/
structure Safe (s : State) : Prop where
  /-- R113. -/
  controller : ControllerSafe s.ctl
  /-- R33, R34, R142, R144. -/
  phase : PhaseSafe s.htr
  /-- R32: before the first period start both budgets are 0 and the loop is stopped. -/
  budgets : BudgetsSafe s.cfg s.htr ∨ (s.htr.onMs = 0 ∧ s.htr.offMs = 0 ∧ s.htr.phase = .stopped)
  /-- R8, R37: `CFG_FAULT` is the outcome of the check of the parameters. -/
  fault_is_check : s.cfgFault = !s.cfg.valid
  /-- R176: in configuration fault mode the loop is stopped. -/
  fault_stopped : s.cfgFault = true → s.htr.phase = .stopped
  /-- R176: in configuration fault mode no query is made. -/
  fault_no_query : s.cfgFault = true → s.evalPending = false
  /-- R40: `QRY_REQ` equals `EVAL_PENDING`. -/
  query_wire : s.qryReq = s.evalPending
  /-- R105: an evaluation in flight was accepted with its interval elapsed. -/
  query_gate : s.evalPending = true → s.cfg.sampleMs.toNat ≤ (s.t0 - s.ctl.lastTime).toNat
  /-- R92: no response stands while an evaluation is in flight. -/
  query_silent : s.evalPending = true → s.rsp = none
  /-- R38: bits 31:5 of `ERR` read as 0. -/
  err_reserved : s.err.toNat < 32

/-- The spec's "gone wrong" predicate (R174). -/
def goneWrong (s : State) : Bool := s.err != 0

/-- "A run is not over while `EVAL_PENDING = 1` or `RELAY_REQ = 1`" (R177); nor while inputs remain. -/
def runOver (s : State) : Bool :=
  !s.evalPending && !s.htr.relayReq && decide (s.wires = Wires.idle) && s.arrivals.isEmpty

/-- A block that was never tuned and does not heat (R201): no gains, lower bound 0, nothing integrated, no output, and the
relay neither on nor being turned on. -/
structure Cold (s : State) : Prop where
  no_gains : s.ctl.kp = 0 ∧ s.ctl.ki = 0 ∧ s.ctl.kd = 0
  floor_zero : s.ctl.outMin = 0
  no_integral : s.ctl.integral = 0
  no_output : s.ctl.output = 0
  relay_off : s.htr.relayState = false
  wire_off : s.htr.relayLevel = false

end Sys2Proof.Machine
end

