-- ==== Sys2Proof/Certificates/Slice0/Obligations.lean ====
section
/-! DEFINITION. The statements for the provers, from the numbered rules of spec/. A statement about an event's step
puts that one event on the wires (`Wires.command w`, or `Wires.idle` with one field set): by the order of R184 (stated
as `SimultaneousEventsInFixedOrder`) no other event is left in the cycle when a command is taken. -/

open Sys2Proof Sys2Proof.Machine

/-! ### Encoding -/

/-- R81 to R83, R85: the decoder reads back every command, with every operand value, from its canonical encoding. -/
def Obligations.DecodeEncodeRoundTrip : Prop :=
  ∀ i : Instr, decode (encode i) = some i

/-- R84: the decoder gives a command exactly for the legal words. -/
def Obligations.DecoderAcceptsExactlyLegalWords : Prop :=
  ∀ w : CmdWord, (decode w).isSome = legalWord w

/-- R84: what an illegal word is, that every word is a command or is refused, and what the refusal does. -/
def Obligations.IllegalWordRefused : Prop :=
  (∀ w : CmdWord, legalWord w = true ↔
    (w.extractLsb' 120 8).toNat ∈ [0x01, 0x10, 0x11, 0x12, 0x13, 0x14, 0x15, 0x20, 0x21] ∧ w.extractLsb' 96 24 = 0) ∧
  (∀ w : CmdWord, legalWord w = true → ∃ i, decode w = some i) ∧
  legalWord 0 = false ∧ legalWord (BitVec.allOnes 128) = false ∧ statusByte (.err .illegal) = 0x80 ∧
  ∀ (w : CmdWord) (s : State), legalWord w = false → s.evalPending = false →
    step { s with wires := Wires.command w } =
      .next { s with wires := Wires.idle, err := s.err ||| 1#32, rsp := some { status := .err .illegal, data := 0 } }

/-- R85: the operand fields a command does not take have no part in decoding, and are zero in the canonical
encoding. -/
def Obligations.UntakenFieldsIgnored : Prop :=
  (∀ w w' : CmdWord, w.extractLsb' 96 32 = w'.extractLsb' 96 32 →
    ((w.extractLsb' 120 8).toNat ∈ [0x10, 0x20, 0x21] → decode w = decode w') ∧
    ((w.extractLsb' 120 8).toNat ∈ [0x01, 0x13, 0x14, 0x15] → w.extractLsb' 64 32 = w'.extractLsb' 64 32 →
      decode w = decode w') ∧
    ((w.extractLsb' 120 8).toNat = 0x12 → w.extractLsb' 32 64 = w'.extractLsb' 32 64 → decode w = decode w')) ∧
  ∀ (w : CmdWord) (i : Instr), decode w = some i →
    (encode i).extractLsb' 96 32 = w.extractLsb' 96 32 ∧
    ((w.extractLsb' 120 8).toNat ∈ [0x10, 0x20, 0x21] → (encode i).extractLsb' 0 96 = 0) ∧
    ((w.extractLsb' 120 8).toNat ∈ [0x01, 0x13, 0x14, 0x15] →
      (encode i).extractLsb' 64 32 = w.extractLsb' 64 32 ∧ (encode i).extractLsb' 0 64 = 0) ∧
    ((w.extractLsb' 120 8).toNat = 0x12 →
      (encode i).extractLsb' 32 64 = w.extractLsb' 32 64 ∧ (encode i).extractLsb' 0 32 = 0) ∧
    ((w.extractLsb' 120 8).toNat = 0x11 → encode i = w)

/-- R83: words written out from the spec's encodings (spec/95_test_vectors.md) decode to what they stand for. -/
def Obligations.SpecWordsDecode : Prop :=
  decode 0x01000000000000120000000000000000#128 = some (.getReg 0x12) ∧
  decode 0x10000000DEADBEEF12345678FFFFFFFF#128 = some .pidEval ∧
  decode 0x11000000000080000000800000020000#128 = some (.pidSetGains 0x8000 0x8000 0x20000) ∧
  decode 0x12000000FFFF00000001000000000000#128 = some (.pidSetLimits 0xFFFF0000 0x10000) ∧
  decode 0x13000000003C00000000000000000000#128 = some (.pidSetSetpoint 0x3C0000) ∧
  decode 0x14000000003C00000000000000000000#128 = some (.pidIncSetpoint 0x3C0000) ∧
  decode 0x15000000000080000000000000000000#128 = some (.pidDecSetpoint 0x8000) ∧
  decode 0x20000000000000000000000000000000#128 = some .htrStart ∧
  decode 0x21000000000000000000000000000000#128 = some .htrStop ∧
  decode 0x16000000000100000000000000000000#128 = none ∧
  decode 0x10000001000000000000000000000000#128 = none

/-- R62, R87: the serial carriage of a command word, and no word before all 16 bytes have arrived. That more than 16
bytes are no word either is the model's reading of R80's single length (DEDUCED, log 18). -/
def Obligations.SerialCarriageMostSignificantByteFirst : Prop :=
  (∀ w : CmdWord, wordOfSerial (serialOfWord w) = some w ∧ (serialOfWord w).length = 16 ∧
    ∀ k, k < 16 → (serialOfWord w)[k]? = some (w.extractLsb' (120 - 8 * k) 8)) ∧
  ∀ bytes : List Byte, bytes.length ≠ 16 → wordOfSerial bytes = none

/-- R93: the numeric status codes; bit 7 is 1 exactly for refusals. -/
def Obligations.ResponseStatusCodes : Prop :=
  statusByte .ok = 0x00 ∧ statusByte .okCached = 0x01 ∧ statusByte (.err .illegal) = 0x80 ∧
  statusByte (.err .arg) = 0x81 ∧ statusByte (.err .range) = 0x82 ∧ statusByte (.err .fault) = 0x83 ∧
  statusByte (.err .busy) = 0x84 ∧
  ∀ c : RspCode, (statusByte c).getLsbD 7 = true ↔ ∃ e, c = .err e

/-! ### Steps and events -/

/-- R13, R86, R173: a step with a legal command word presented and the port open runs the decoded command, on the
state with the word taken and no earlier response standing. -/
def Obligations.StepRunsPresentedCommand : Prop :=
  ∀ (s : State) (w : CmdWord) (i : Instr), s.evalPending = false → decode w = some i →
    step { s with wires := Wires.command w } = exec i { s with wires := Wires.idle, rsp := none }

/-- R86: `CMD_READY`, and a word presented while it is 0 waits: no step takes it, and the next clock cycle still finds
it at the port (the model's log 6 says what a host that drives another word does). -/
def Obligations.CommandWaitsWhilePortClosed : Prop :=
  (∀ s : State, cmdReady s = true ↔ s.evalPending = false ∧ s.wires.reset = none) ∧
  ∀ (s : State) (w : CmdWord), s.evalPending = true →
    step { s with wires := Wires.command w, arrivals := [] } =
      .next { s with wires := Wires.command w, arrivals := [], rsp := none } ∧
    ∀ (c : Wires) (rest : List Wires), c.cmd = none →
      step { s with wires := Wires.command w, arrivals := c :: rest } =
        .next { s with wires := { c with cmd := some w }, arrivals := rest, rsp := none }

/-- R184: events of one clock cycle, as separate steps in the fixed order. -/
def Obligations.SimultaneousEventsInFixedOrder : Prop :=
  ∀ (s : State) (w : Wires),
    (∀ cfg, w.reset = some cfg →
      step { s with wires := w } = .next { State.afterReset cfg with arrivals := s.arrivals }) ∧
    (w.reset = none → w.tick = true →
      step { s with wires := w } = .next (tickStep { s with wires := { w with tick := false }, rsp := none })) ∧
    (w.reset = none → w.tick = false → w.relayAck = true →
      step { s with wires := w } = relayAckStep { s with wires := { w with relayAck := false }, rsp := none }) ∧
    (∀ v, w.reset = none → w.tick = false → w.relayAck = false → w.qryRsp = some v →
      step { s with wires := w } = qryRspStep v { s with wires := { w with qryRsp := none }, rsp := none }) ∧
    (∀ c, w.reset = none → w.tick = false → w.relayAck = false → w.qryRsp = none → w.cmd = some c →
      s.evalPending = false →
      step { s with wires := w } = cmdStep c { s with wires := Wires.idle, rsp := none })

/-- R191: with a silent environment the block is idle, and every register keeps its value. -/
def Obligations.SilentBlockIsIdle : Prop :=
  ∀ s : State, s.wires = Wires.idle → s.arrivals = [] → step s = .next { s with rsp := none }

/-- R180, R181: an answer with nothing pending is no step: the model faults (its own form of "no step", log 4). -/
def Obligations.UnsolicitedAnswersHaveNoStep : Prop :=
  ∀ s : State,
    (∀ v, s.evalPending = false →
      step { s with wires := { Wires.idle with qryRsp := some v } } = .fault .qryRspNotEnabled) ∧
    (s.htr.relayReq = false →
      step { s with wires := { Wires.idle with relayAck := true } } = .fault .relayAckNotEnabled)

/-- R200: the `RESET` step, register by register, whatever was waiting or in flight; a late answer is no step. -/
def Obligations.ResetStepGivesResetValues : Prop :=
  ∀ (s : State) (cfg : Config), s.wires.reset = some cfg →
    ∃ t, step s = .next t ∧
      t.ctl.setpoint = 0 ∧ t.ctl.kp = 0 ∧ t.ctl.ki = 0 ∧ t.ctl.kd = 0 ∧
      t.ctl.outMin = 0 ∧ t.ctl.outMax = 0x00010000 ∧
      t.ctl.integral = 0 ∧ t.ctl.lastInput = 0 ∧ t.ctl.output = 0 ∧ t.ctl.lastTime = 0 ∧
      t.time = 0 ∧ t.err = 0 ∧ t.evalPending = false ∧ t.t0 = 0 ∧ t.qryReq = false ∧
      t.htr.phase = .stopped ∧ t.htr.stopFlag = true ∧ t.htr.relayState = false ∧
      t.htr.relayLevel = false ∧ t.htr.relayReq = false ∧
      t.htr.onMs = 0 ∧ t.htr.offMs = 0 ∧ t.htr.tRem = 0 ∧ t.htr.tWr = 0 ∧ t.htr.onTime = 0 ∧
      (t.cfgFault = true ↔ (cfg.sampleMs = 0 ∨ cfg.periodMs = 0 ∨ cfg.halfCycleMs = 0 ∨
        cfg.spMin.toInt < 0 ∨ cfg.spMax.toInt < cfg.spMin.toInt)) ∧
      t.cfg = cfg ∧ cmdReady t = true ∧ t.rsp = none ∧ t.wires = Wires.idle ∧ t.arrivals = s.arrivals ∧
      (∀ v u, step { t with wires := { Wires.idle with qryRsp := some v } } ≠ .next u) ∧
      (∀ u, step { t with wires := { Wires.idle with relayAck := true } } ≠ .next u)

/-! ### The system command and the status registers -/

/-- R160, R61: `GET_REG` of every mapped index answers the register's value and changes nothing else; every other index
is refused with `E_ARG`; in configuration fault mode too. -/
def Obligations.GetRegReadsMappedRegisters : Prop :=
  ∀ s : State,
    let value : List (Word × Word) :=
      [(0x00, s.ctl.setpoint), (0x01, s.ctl.kp), (0x02, s.ctl.ki), (0x03, s.ctl.kd), (0x04, s.ctl.outMin),
       (0x05, s.ctl.outMax), (0x06, s.ctl.integral), (0x07, s.ctl.lastInput), (0x08, s.ctl.output),
       (0x09, s.ctl.lastTime), (0x10, s.time), (0x11, statusWord s), (0x12, s.err), (0x13, s.cfg.sampleMs),
       (0x14, s.cfg.spMin), (0x15, s.cfg.spMax), (0x20, (phaseCode s.htr.phase).setWidth 32), (0x21, s.htr.onMs),
       (0x22, s.htr.offMs), (0x23, s.htr.tRem), (0x24, s.htr.onTime), (0x25, s.cfg.periodMs),
       (0x26, s.cfg.halfCycleMs), (0x27, s.htr.tWr)]
    (∀ p ∈ value, exec (.getReg p.1) s = .next { s with rsp := some { status := .ok, data := p.2 } }) ∧
    ∀ idx : Word, (∀ p ∈ value, p.1 ≠ idx) →
      exec (.getReg idx) s = .next { s with err := s.err ||| 2#32, rsp := some { status := .err .arg, data := 0 } }

/-- R37: the layout of `STATUS`; `EVAL_PENDING` reads 0 because no command is accepted while it is 1. -/
def Obligations.StatusWordLayout : Prop :=
  ∀ s : State,
    (statusWord s).getLsbD 0 = s.cfgFault ∧ (statusWord s).getLsbD 1 = s.evalPending ∧
    ((statusWord s).getLsbD 2 = true ↔ s.htr.phase ≠ .stopped) ∧ (statusWord s).getLsbD 3 = s.htr.stopFlag ∧
    (statusWord s).getLsbD 4 = s.htr.relayState ∧ (statusWord s).getLsbD 5 = s.htr.relayLevel ∧
    (statusWord s).getLsbD 6 = s.htr.relayReq ∧ (∀ n, 7 ≤ n → (statusWord s).getLsbD n = false) ∧
    (s.evalPending = true → cmdEvent s = none)

/-- R34: the codes of `PHASE`; 6 and 7 are never taken. -/
def Obligations.PhaseCodes : Prop :=
  phaseCode .stopped = 0 ∧ phaseCode .onReq = 1 ∧ phaseCode .onWait = 2 ∧ phaseCode .offReq = 3 ∧
  phaseCode .offWait = 4 ∧ phaseCode .finalReq = 5 ∧ ∀ p, (phaseCode p).toNat < 6

/-- R38: `ERR` is sticky: outside reset a step changes it only by setting the bit of the refusal it answers with. -/
def Obligations.ErrChangesOnlyByRefusal : Prop :=
  ∀ s t : State, s.wires.reset = none → step s = .next t →
    (s.err &&& t.err = s.err) ∧
    ((t.err = s.err ∧ ∀ c d, t.rsp ≠ some { status := .err c, data := d }) ∨
     (∃ c, t.err = s.err ||| errBit c ∧ t.rsp = some { status := .err c, data := 0 }))

/-- R38: which bit each refusal sets. -/
def Obligations.ErrBitOfEachRefusal : Prop :=
  (∀ n, (errBit .illegal).getLsbD n = decide (n = 0)) ∧ (∀ n, (errBit .arg).getLsbD n = decide (n = 1)) ∧
  (∀ n, (errBit .range).getLsbD n = decide (n = 2)) ∧ (∀ n, (errBit .fault).getLsbD n = decide (n = 3)) ∧
  (∀ n, (errBit .busy).getLsbD n = decide (n = 4))

/-- R36: `TIME` counts `TICK`s modulo 2^32, is 0 after reset, is changed by no other step, and reads at 0x10. -/
def Obligations.TimeCountsTicksOnly : Prop :=
  (∀ cfg, (State.afterReset cfg).time = 0) ∧
  (∀ s t : State, s.wires.reset = none → step s = .next t →
    t.time = if s.wires.tick then s.time + 1 else s.time) ∧
  ∀ s : State, exec (.getReg 0x10) s = .next { s with rsp := some { status := .ok, data := s.time } }

/-- R39, R7: the parameters, and `CFG_FAULT` with them, change at reset only. -/
def Obligations.ParametersFixedBetweenResets : Prop :=
  ∀ s t : State, s.wires.reset = none → step s = .next t → t.cfg = s.cfg ∧ t.cfgFault = s.cfgFault

/-! ### The PID unit -/

/-- R105: the evaluation gate, on elapsed time modulo 2^32; equal counts as elapsed. -/
def Obligations.PidEvalGate : Prop :=
  ∀ s : State, s.cfgFault = false →
    let elapsedMs := (s.time.toNat + 2 ^ 32 - s.ctl.lastTime.toNat) % 2 ^ 32
    (elapsedMs < s.cfg.sampleMs.toNat →
      exec .pidEval s = .next { s with rsp := some { status := .okCached, data := s.ctl.output } }) ∧
    (s.cfg.sampleMs.toNat ≤ elapsedMs →
      exec .pidEval s = .next { s with evalPending := true, t0 := s.time, qryReq := true })

/-- R106: completion of an evaluation by `QRY_RSP(v)`. -/
def Obligations.QryRspCompletesEvaluation : Prop :=
  ∀ (s : State) (v : Word),
    let go := step { s with wires := { Wires.idle with qryRsp := some v } }
    (s.evalPending = false → ∀ t, go ≠ .next t) ∧
    (s.evalPending = true → s.ctl.outMin.toInt ≤ s.ctl.outMax.toInt →
      ∃ i o : Word,
        i.toInt = max s.ctl.outMin.toInt (min s.ctl.outMax.toInt
          (s.ctl.integral.toInt + Int.fdiv (s.ctl.ki.toInt * (s.ctl.setpoint.toInt - v.toInt)) 65536)) ∧
        o.toInt = max s.ctl.outMin.toInt (min s.ctl.outMax.toInt
          (Int.fdiv (s.ctl.kp.toInt * (s.ctl.setpoint.toInt - v.toInt) + i.toInt * 65536
            - s.ctl.kd.toInt * (v.toInt - s.ctl.lastInput.toInt)) 65536)) ∧
        go = .next { s with
          wires := Wires.idle
          ctl := { s.ctl with integral := i, output := o, lastInput := v, lastTime := s.t0 }
          evalPending := false
          qryReq := false
          rsp := some { status := .ok, data := o } })

/-- R104: the distance of the stored results from the controller's law over the reals (here the rationals, which hold
every value of the law): below it by less than one unit in the last place, never above. -/
def Obligations.EvaluationTracksRealLaw : Prop :=
  ∀ (s t : State) (v : Word), s.evalPending = true → s.ctl.outMin.toInt ≤ s.ctl.outMax.toInt →
    step { s with wires := { Wires.idle with qryRsp := some v } } = .next t →
    let real := fun w : Word => (w.toInt : ℚ) / 65536
    let err := real s.ctl.setpoint - real v
    let iStar := max (real s.ctl.outMin) (min (real s.ctl.outMax) (real s.ctl.integral + real s.ctl.ki * err))
    let oStar := max (real s.ctl.outMin) (min (real s.ctl.outMax)
      (real s.ctl.kp * err + real t.ctl.integral - real s.ctl.kd * (real v - real s.ctl.lastInput)))
    (iStar - 1 / 65536 < real t.ctl.integral ∧ real t.ctl.integral ≤ iStar) ∧
    (oStar - 1 / 65536 < real t.ctl.output ∧ real t.ctl.output ≤ oStar)

/-- R72: a `TICK` or a `RELAY_ACK` between acceptance and completion changes nothing that the completion computes. -/
def Obligations.InterveningStepsDoNotChangeEvaluation : Prop :=
  ∀ (s : State) (v : Word),
    ((completeEval v (tickStep s)).ctl = (completeEval v s).ctl ∧
      (completeEval v (tickStep s)).rsp = (completeEval v s).rsp) ∧
    ((completeEval v (acknowledge s)).ctl = (completeEval v s).ctl ∧
      (completeEval v (acknowledge s)).rsp = (completeEval v s).rsp)

/-- R108: gain pre-scaling; all three gains are written, or none and `E_RANGE`. -/
def Obligations.SetGainsScalesOrRefuses : Prop :=
  ∀ (s : State) (gainP gainI gainD : Word), s.cfgFault = false → s.cfg.sampleMs ≠ 0 →
    let ki := Int.fdiv (gainI.toInt * s.cfg.sampleMs.toNat) 1000
    let kd := Int.fdiv (gainD.toInt * 1000) s.cfg.sampleMs.toNat
    ((ki < -2 ^ 31 ∨ 2 ^ 31 - 1 < ki ∨ kd < -2 ^ 31 ∨ 2 ^ 31 - 1 < kd) →
      exec (.pidSetGains gainP gainI gainD) s =
        .next { s with err := s.err ||| 4#32, rsp := some { status := .err .range, data := 0 } }) ∧
    (-2 ^ 31 ≤ ki ∧ ki ≤ 2 ^ 31 - 1 ∧ -2 ^ 31 ≤ kd ∧ kd ≤ 2 ^ 31 - 1 →
      ∃ i d : Word, i.toInt = ki ∧ d.toInt = kd ∧
        exec (.pidSetGains gainP gainI gainD) s =
          .next { s with
            ctl := { s.ctl with kp := gainP, ki := i, kd := d }
            rsp := some { status := .ok, data := 0 } })

/-- R108 corner (a): with `SAMPLE_MS = 1000` the gains are stored as given, and `E_RANGE` cannot occur. -/
def Obligations.SetGainsIdentityAtOneSecond : Prop :=
  ∀ (s : State) (gainP gainI gainD : Word), s.cfgFault = false → s.cfg.sampleMs = 1000 →
    exec (.pidSetGains gainP gainI gainD) s =
      .next { s with
        ctl := { s.ctl with kp := gainP, ki := gainI, kd := gainD }
        rsp := some { status := .ok, data := 0 } }

/-- R109: new limits re-clamp the stored integral and output at once; `min > max` is refused. -/
def Obligations.SetLimitsReclamps : Prop :=
  ∀ (s : State) (lo hi : Word), s.cfgFault = false →
    (hi.toInt < lo.toInt →
      exec (.pidSetLimits lo hi) s =
        .next { s with err := s.err ||| 2#32, rsp := some { status := .err .arg, data := 0 } }) ∧
    (lo.toInt ≤ hi.toInt →
      ∃ i o : Word, i.toInt = max lo.toInt (min hi.toInt s.ctl.integral.toInt) ∧
        o.toInt = max lo.toInt (min hi.toInt s.ctl.output.toInt) ∧
        exec (.pidSetLimits lo hi) s =
          .next { s with
            ctl := { s.ctl with outMin := lo, outMax := hi, integral := i, output := o }
            rsp := some { status := .ok, data := o } })

/-- R110: a direct setpoint change is stored as given unless negative. -/
def Obligations.SetSetpointUnlessNegative : Prop :=
  ∀ (s : State) (value : Word), s.cfgFault = false →
    (value.toInt < 0 →
      exec (.pidSetSetpoint value) s =
        .next { s with err := s.err ||| 2#32, rsp := some { status := .err .arg, data := 0 } }) ∧
    (0 ≤ value.toInt →
      exec (.pidSetSetpoint value) s =
        .next { s with ctl := { s.ctl with setpoint := value }, rsp := some { status := .ok, data := value } })

/-- R111: exact sum, then the clamp; never negative; a negative delta lowers as the decrement would. -/
def Obligations.IncSetpointClamps : Prop :=
  ∀ (s : State) (delta : Word), s.cfgFault = false → s.cfg.valid = true →
    (∃ v : Word, v.toInt = max s.cfg.spMin.toInt (min s.cfg.spMax.toInt (s.ctl.setpoint.toInt + delta.toInt)) ∧
      0 ≤ v.toInt ∧
      exec (.pidIncSetpoint delta) s =
        .next { s with ctl := { s.ctl with setpoint := v }, rsp := some { status := .ok, data := v } }) ∧
    (delta.toInt ≠ -2 ^ 31 → exec (.pidIncSetpoint (-delta)) s = exec (.pidDecSetpoint delta) s)

/-- R112: exact difference, then the clamp; never negative; with the least delta it clamps to `SP_MAX`. -/
def Obligations.DecSetpointClamps : Prop :=
  ∀ (s : State) (delta : Word), s.cfgFault = false → s.cfg.valid = true →
    (∃ v : Word, v.toInt = max s.cfg.spMin.toInt (min s.cfg.spMax.toInt (s.ctl.setpoint.toInt - delta.toInt)) ∧
      0 ≤ v.toInt ∧ (delta.toInt = -2 ^ 31 → 0 ≤ s.ctl.setpoint.toInt → v = s.cfg.spMax) ∧
      exec (.pidDecSetpoint delta) s =
        .next { s with ctl := { s.ctl with setpoint := v }, rsp := some { status := .ok, data := v } })

/-! ### Refusals and responses -/

/-- R173, R176: in configuration fault mode every command but `GET_REG` is refused with `E_FAULT`, before its own
check; an illegal word stays `E_ILLEGAL` (`IllegalWordRefused` has no condition on the mode). -/
def Obligations.ConfigFaultRefusesAllButGetReg : Prop :=
  ∀ (s : State) (i : Instr), s.cfgFault = true → (∀ idx, i ≠ .getReg idx) →
    exec i s = .next { s with err := s.err ||| 8#32, rsp := some { status := .err .fault, data := 0 } }

/-- R171: a refusal is precise: the step that answers with one is a `CMD` step, and the state after it is the state
before it, the word taken, with the matching bit of `ERR` set and the response `(code, 0)`. -/
def Obligations.RefusalIsPrecise : Prop :=
  ∀ (s t : State) (c : ErrCode) (d : Word), step s = .next t → t.rsp = some { status := .err c, data := d } →
    let bit : Word := match c with
      | .illegal => 1
      | .arg => 2
      | .range => 4
      | .fault => 8
      | .busy => 16
    (∃ w, nextEvent s = some (.cmd w)) ∧
    t = { s with
      wires := { s.wires with cmd := none }
      err := s.err ||| bit
      rsp := some { status := .err c, data := 0 } }

/-- R172, R173: which command raises which refusal, and when. `E_ILLEGAL` comes from no command. -/
def Obligations.RefusalCauses : Prop :=
  ∀ (i : Instr) (s t : State) (c : ErrCode) (d : Word), s.rsp = none → exec i s = .next t →
    t.rsp = some { status := .err c, data := d } →
    (c = .fault ∧ s.cfgFault = true ∧ ∀ idx, i ≠ .getReg idx) ∨
    (c = .arg ∧ s.cfgFault = false ∧ ∃ v, i = .pidSetSetpoint v ∧ v.toInt < 0) ∨
    (c = .arg ∧ s.cfgFault = false ∧ ∃ lo hi, i = .pidSetLimits lo hi ∧ hi.toInt < lo.toInt) ∨
    (c = .arg ∧ ∃ idx : Word, i = .getReg idx ∧
      ¬ (idx.toNat ≤ 0x09 ∨ (0x10 ≤ idx.toNat ∧ idx.toNat ≤ 0x15) ∨ (0x20 ≤ idx.toNat ∧ idx.toNat ≤ 0x27))) ∨
    (c = .range ∧ s.cfgFault = false ∧ ∃ p g d' : Word, i = .pidSetGains p g d' ∧
      ¬ (-2 ^ 31 ≤ scaledKi s.cfg g ∧ scaledKi s.cfg g ≤ 2 ^ 31 - 1 ∧
         -2 ^ 31 ≤ scaledKd s.cfg d' ∧ scaledKd s.cfg d' ≤ 2 ^ 31 - 1)) ∨
    (c = .busy ∧ s.cfgFault = false ∧ i = .htrStart ∧ s.htr.phase ≠ .stopped)

/-- R92: an accepted command produces its one response in the step that accepts it, but for an effective `PID_EVAL`,
which leaves the query open and produces none yet; no step of another event but `QRY_RSP` produces one. -/
def Obligations.OneResponsePerCommand : Prop :=
  (∀ (i : Instr) (s t : State), s.rsp = none → s.evalPending = false → exec i s = .next t →
    (t.rsp.isSome = true ∧ t.evalPending = false) ∨ (i = .pidEval ∧ t.rsp = none ∧ t.evalPending = true)) ∧
  ∀ s t : State, step s = .next t → t.rsp.isSome = true →
    (∃ w, nextEvent s = some (.cmd w)) ∨ (∃ v, nextEvent s = some (.qryRsp v) ∧ s.evalPending = true)

/-! ### The heater actuator -/

/-- R131: `quantize(d)`. -/
def Obligations.QuantizerRule : Prop :=
  ∀ (c : Config) (d : Int), c.periodMs ≠ 0 → c.halfCycleMs ≠ 0 →
    let period : Int := c.periodMs.toNat
    let half : Int := c.halfCycleMs.toNat
    (d * period < half * 65536 → quantizeOn c d = 0) ∧
    (half * 65536 ≤ d * period →
      ∃ k : Int, d * period ≤ k * (half * 65536) ∧ (k - 1) * (half * 65536) < d * period ∧
        quantizeOn c d = min period (k * half)) ∧
    ∀ s : State, s.cfg = c →
      ((setBudgets d s).htr.onMs.toNat : Int) = quantizeOn c d ∧
      ((setBudgets d s).htr.offMs.toNat : Int) = period - quantizeOn c d

/-- R132: the properties of `quantize` for a well-configured block, (a) to (g). -/
def Obligations.QuantizerProperties : Prop :=
  (∀ (c : Config) (d : Int), c.valid = true →
    let on := quantizeOn c d
    let period : Int := c.periodMs.toNat
    let half : Int := c.halfCycleMs.toNat
    (∀ s : State, s.cfg = c → (setBudgets d s).htr.onMs.toNat + (setBudgets d s).htr.offMs.toNat = c.periodMs.toNat) ∧
    (d ≤ 0 ∨ d * period < half * 65536 → on = 0) ∧
    (half ≤ period → 65536 ≤ d → on = period) ∧
    (∀ k : Int, half * 65536 ≤ d * period → (k - 1) * (half * 65536) < d * period → period ≤ k * half → on = period) ∧
    (on = 0 ∨ on = period ∨ (half ∣ on ∧ half ≤ on)) ∧
    (on ≠ 0 → on < half → period < half) ∧
    (∀ d' : Int, d ≤ d' → on ≤ quantizeOn c d')) ∧
  (∀ c : Config, c.valid = true →
    ((∀ d : Int, (c.halfCycleMs.toNat : Int) ∣ c.periodMs.toNat - quantizeOn c d) ↔
      (c.halfCycleMs.toNat : Int) ∣ c.periodMs.toNat)) ∧
  (∀ (c : Config) (d : Int), c.periodMs = 200 → c.halfCycleMs = 10 →
    quantizeOn c d ≠ 10 ∧ (quantizeOn c d = 0 ∨ 20 ≤ quantizeOn c d) ∧
    (d ≤ 3276 → quantizeOn c d = 0) ∧ (d = 3277 → quantizeOn c d = 20))

/-- R140: the chained procedures end within four calls: more calls change nothing. -/
def Obligations.ChainedProceduresEndInFourCalls : Prop :=
  ∀ (s : State) (n : Nat), s.cfg.periodMs ≠ 0 → s.cfg.halfCycleMs ≠ 0 → 4 ≤ n →
    chain n .periodStart s = periodStart s ∧ chain n .offEntry s = offEntry s

/-- R135, R136, R142: what `period_start()` does, with the whole state it leaves. -/
def Obligations.PeriodStartOutcome : Prop :=
  ∀ s : State, s.cfg.periodMs ≠ 0 → s.cfg.halfCycleMs ≠ 0 →
    let on := quantizeOn s.cfg s.ctl.output.toInt
    ∃ onMs offMs : Word, (onMs.toNat : Int) = on ∧ (offMs.toNat : Int) = s.cfg.periodMs.toNat - on ∧
      (s.htr.stopFlag = true →
        periodStart s = { s with htr :=
          { s.htr with relayLevel := false, relayReq := true, tWr := s.time, phase := .finalReq } }) ∧
      (s.htr.stopFlag = false → on ≠ 0 → s.htr.relayState = true →
        periodStart s = { s with htr := { s.htr with onMs := onMs, offMs := offMs, tRem := onMs, phase := .onWait } }) ∧
      (s.htr.stopFlag = false → on ≠ 0 → s.htr.relayState = false →
        periodStart s = { s with htr :=
          { s.htr with onMs := onMs, offMs := offMs, relayLevel := true, relayReq := true, tWr := s.time, phase := .onReq } }) ∧
      (s.htr.stopFlag = false → on = 0 → s.htr.relayState = true →
        periodStart s = { s with htr :=
          { s.htr with onMs := onMs, offMs := offMs, relayLevel := false, relayReq := true, tWr := s.time, phase := .offReq } }) ∧
      (s.htr.stopFlag = false → on = 0 → s.htr.relayState = false →
        periodStart s = { s with htr := { s.htr with onMs := onMs, offMs := offMs, tRem := offMs, phase := .offWait } })

/-- R137: `off_entry()`. -/
def Obligations.OffEntryOutcome : Prop :=
  ∀ s : State, s.cfg.periodMs ≠ 0 → s.cfg.halfCycleMs ≠ 0 →
    (s.htr.offMs = 0 → offEntry s = periodStart s) ∧
    (s.htr.offMs ≠ 0 → s.htr.relayState = false →
      offEntry s = { s with htr := { s.htr with tRem := s.htr.offMs, phase := .offWait } }) ∧
    (s.htr.offMs ≠ 0 → s.htr.relayState = true →
      offEntry s = { s with htr :=
        { s.htr with relayLevel := false, relayReq := true, tWr := s.time, phase := .offReq } })

/-- R133: `HTR_START`, refused unless `STOPPED`; else the first period starts in the same step (R135, R136). -/
def Obligations.HtrStartBeginsPeriod : Prop :=
  ∀ s : State, s.cfgFault = false →
    (s.htr.phase ≠ .stopped →
      exec .htrStart s = .next { s with err := s.err ||| 16#32, rsp := some { status := .err .busy, data := 0 } }) ∧
    (s.htr.phase = .stopped → s.htr.relayState = false → s.cfg.periodMs ≠ 0 → s.cfg.halfCycleMs ≠ 0 →
      let on := quantizeOn s.cfg s.ctl.output.toInt
      ∃ onMs offMs : Word, (onMs.toNat : Int) = on ∧ (offMs.toNat : Int) = s.cfg.periodMs.toNat - on ∧
        (on = 0 →
          exec .htrStart s = .next { s with
            rsp := some { status := .ok, data := 0 }
            htr := { s.htr with stopFlag := false, onMs := onMs, offMs := offMs, tRem := offMs, phase := .offWait } }) ∧
        (on ≠ 0 →
          exec .htrStart s = .next { s with
            rsp := some { status := .ok, data := 0 }
            htr := { s.htr with stopFlag := false, onMs := onMs, offMs := offMs, relayLevel := true, relayReq := true,
                                tWr := s.time, phase := .onReq } }))

/-- R134: `HTR_STOP` sets the flag and does nothing else. -/
def Obligations.HtrStopSetsFlagOnly : Prop :=
  ∀ s : State, s.cfgFault = false →
    exec .htrStop s =
      .next { s with htr := { s.htr with stopFlag := true }, rsp := some { status := .ok, data := 0 } }

/-- R139: the `TICK` step. -/
def Obligations.TickStepRule : Prop :=
  ∀ s : State,
    let onTime := s.htr.onTime + (if s.htr.relayState then 1 else 0)
    let go := step { s with wires := { Wires.idle with tick := true } }
    let t := { s with wires := Wires.idle, rsp := none, time := s.time + 1, htr := { s.htr with onTime := onTime } }
    (s.htr.phase ≠ .onWait → s.htr.phase ≠ .offWait → go = .next t) ∧
    (s.htr.phase = .onWait ∨ s.htr.phase = .offWait → 2 ≤ s.htr.tRem.toNat →
      go = .next { t with htr := { t.htr with tRem := s.htr.tRem - 1 } }) ∧
    (s.htr.phase = .onWait → s.htr.tRem = 1 → go = .next (offEntry { t with htr := { t.htr with tRem := 0 } })) ∧
    (s.htr.phase = .offWait → s.htr.tRem = 1 → go = .next (periodStart { t with htr := { t.htr with tRem := 0 } }))

/-- R138: the `RELAY_ACK` step, with the latency taken from the wait. -/
def Obligations.RelayAckStepRule : Prop :=
  ∀ s : State,
    let lat := (s.time.toNat + 2 ^ 32 - s.htr.tWr.toNat) % 2 ^ 32
    let go := step { s with wires := { Wires.idle with relayAck := true } }
    let t := { s with wires := Wires.idle, rsp := none }
    (s.htr.relayReq = false → ∀ u, go ≠ .next u) ∧
    (s.htr.relayReq = true →
      (s.htr.phase = .onReq → lat < s.htr.onMs.toNat →
        ∃ rem : Word, rem.toNat = s.htr.onMs.toNat - lat ∧
          go = .next { t with htr := { s.htr with relayReq := false, relayState := true, tRem := rem, phase := .onWait } }) ∧
      (s.htr.phase = .onReq → s.htr.onMs.toNat ≤ lat →
        go = .next (offEntry { t with htr := { s.htr with relayReq := false, relayState := true, tRem := 0 } })) ∧
      (s.htr.phase = .offReq → lat < s.htr.offMs.toNat →
        ∃ rem : Word, rem.toNat = s.htr.offMs.toNat - lat ∧
          go = .next { t with htr := { s.htr with relayReq := false, relayState := false, tRem := rem, phase := .offWait } }) ∧
      (s.htr.phase = .offReq → s.htr.offMs.toNat ≤ lat →
        go = .next (periodStart { t with htr := { s.htr with relayReq := false, relayState := false, tRem := 0 } })) ∧
      (s.htr.phase = .finalReq →
        go = .next { t with htr := { s.htr with relayReq := false, relayState := false, phase := .stopped } }))

/-- R139: a wait entered with `T_REM = n` at `TIME = t` ends in the `TICK` step that makes `TIME = t + n`, and
`ON_TIME` counts the milliseconds of it during which the relay was on. -/
def Obligations.WaitLastsExactlyTRemTicks : Prop :=
  ∀ (s : State) (n : Nat), s.htr.phase = .onWait ∨ s.htr.phase = .offWait → s.htr.tRem.toNat = n + 1 →
    let after := fun k : Nat =>
      { s with
        time := s.time + BitVec.ofNat 32 k
        htr := { s.htr with
          tRem := s.htr.tRem - BitVec.ofNat 32 k
          onTime := s.htr.onTime + (if s.htr.relayState then BitVec.ofNat 32 k else 0) } }
    (∀ k, k ≤ n → tickStep^[k] s = after k) ∧
    (s.htr.phase = .onWait → tickStep^[n + 1] s = offEntry (after (n + 1))) ∧
    (s.htr.phase = .offWait → tickStep^[n + 1] s = periodStart (after (n + 1)))

/-- R141: if every relay write of a period is acknowledged within its sub-interval (`l1` and `l2` ticks after it
begins), the next `period_start` runs exactly `PERIOD_MS` ticks after this one, and the relay logical state was on for
`ON_MS − l1 + l2` ticks of them, a latency being 0 where the write was skipped. One clause for each way a period can
have just started (`PeriodStartOutcome`), and, where the on-interval does not end the period, for the off-interval. -/
def Obligations.PeriodTakesExactlyPeriodMs : Prop :=
  ∀ (s : State) (l1 l2 : Nat), Safe s → l1 ≤ s.htr.onMs.toNat → l2 ≤ s.htr.offMs.toNat →
    let onPart := fun t : State => tickStep^[s.htr.onMs.toNat - l1] (acknowledge (tickStep^[l1] t))
    let offPart := fun t : State => tickStep^[s.htr.offMs.toNat - l2] (acknowledge (tickStep^[l2] t))
    let nextPeriod := fun (t : State) (relay : Bool) (onTicks : Nat) =>
      ∃ u : State, t = periodStart u ∧ u.time = s.time + s.cfg.periodMs ∧ u.ctl = s.ctl ∧
        u.htr.relayState = relay ∧ u.htr.relayReq = false ∧ u.htr.stopFlag = s.htr.stopFlag ∧
        u.htr.onTime = s.htr.onTime + BitVec.ofNat 32 onTicks
    (s.htr.phase = .onReq → s.htr.tWr = s.time →
      (s.htr.offMs ≠ 0 → nextPeriod (offPart (onPart s)) false (s.htr.onMs.toNat - l1 + l2)) ∧
      (s.htr.offMs = 0 → nextPeriod (onPart s) true (s.htr.onMs.toNat - l1))) ∧
    (s.htr.phase = .onWait → s.htr.tRem = s.htr.onMs →
      (s.htr.offMs ≠ 0 → nextPeriod (offPart (tickStep^[s.htr.onMs.toNat] s)) false (s.htr.onMs.toNat + l2)) ∧
      (s.htr.offMs = 0 → nextPeriod (tickStep^[s.htr.onMs.toNat] s) true s.htr.onMs.toNat)) ∧
    (s.htr.onMs = 0 →
      (s.htr.phase = .offReq → s.htr.tWr = s.time → nextPeriod (offPart s) false l2) ∧
      (s.htr.phase = .offWait → s.htr.tRem = s.htr.offMs → nextPeriod (tickStep^[s.htr.offMs.toNat] s) false 0))

/-- R143: the transitions of `PHASE`, over every step from a safe state. -/
def Obligations.PhaseTransitions : Prop :=
  ∀ s t : State, Safe s → s.wires.reset = none → step s = .next t → t.htr.phase ≠ s.htr.phase →
    (s.htr.phase = .stopped ∧ (∃ w, nextEvent s = some (.cmd w) ∧ decode w = some .htrStart) ∧
      (t.htr.phase = .onReq ∨ t.htr.phase = .offWait)) ∨
    (s.htr.phase = .onReq ∧ nextEvent s = some .relayAck ∧
      (t.htr.phase = .onWait ∨ t.htr.phase = .offReq ∨ (s.htr.offMs = 0 ∧ t.htr.phase = .finalReq))) ∨
    (s.htr.phase = .onWait ∧ nextEvent s = some .tick ∧ s.htr.tRem = 1 ∧
      (t.htr.phase = .offReq ∨ (s.htr.offMs = 0 ∧ t.htr.phase = .finalReq))) ∨
    (s.htr.phase = .offReq ∧ nextEvent s = some .relayAck ∧
      (t.htr.phase = .offWait ∨ t.htr.phase = .onReq ∨ t.htr.phase = .finalReq)) ∨
    (s.htr.phase = .offWait ∧ nextEvent s = some .tick ∧ s.htr.tRem = 1 ∧
      (t.htr.phase = .onReq ∨ t.htr.phase = .finalReq)) ∨
    (s.htr.phase = .finalReq ∧ nextEvent s = some .relayAck ∧ t.htr.phase = .stopped)

/-- R144 (a): `RELAY_LEVEL` changes only at the start of a relay write, to a level that differs from `RELAY_STATE`,
except the forced-off write of a shutdown. -/
def Obligations.RelayLevelChangesOnlyAtWriteStart : Prop :=
  ∀ s t : State, Safe s → s.wires.reset = none → step s = .next t →
    (t.htr.relayLevel ≠ s.htr.relayLevel ∨ (t.htr.relayReq = true ∧ s.htr.relayReq = false)) →
    t.htr.relayReq = true ∧ t.htr.tWr = t.time ∧
      ((t.htr.phase = .onReq ∧ t.htr.relayLevel = true ∧ t.htr.relayState = false) ∨
       (t.htr.phase = .offReq ∧ t.htr.relayLevel = false ∧ t.htr.relayState = true) ∨
       (t.htr.phase = .finalReq ∧ t.htr.relayLevel = false ∧ s.htr.stopFlag = true))

/-- R70: the actuator reads `OUTPUT` at a period start and at no other time, reads no other register of the PID unit,
and writes none of them. The premises of the last two clauses are what keeps a step from a period start: a wait that
does not end, an off-interval still to come, or, for an acknowledgement, a latency within the budget. -/
def Obligations.ActuatorReadsOutputOnlyAtPeriodStart : Prop :=
  ∀ (s : State) (c : ControllerState),
    ((tickStep s).ctl = s.ctl ∧ (acknowledge s).ctl = s.ctl) ∧
    (c.output = s.ctl.output →
      tickStep { s with ctl := c } = { tickStep s with ctl := c } ∧
      acknowledge { s with ctl := c } = { acknowledge s with ctl := c }) ∧
    ((s.htr.phase = .onWait → s.htr.tRem = 1 → s.htr.offMs ≠ 0) → (s.htr.phase = .offWait → s.htr.tRem ≠ 1) →
      tickStep { s with ctl := c } = { tickStep s with ctl := c }) ∧
    ((s.htr.phase = .onReq → s.htr.onMs.toNat ≤ (s.time - s.htr.tWr).toNat → s.htr.offMs ≠ 0) →
      (s.htr.phase = .offReq → (s.time - s.htr.tWr).toNat < s.htr.offMs.toNat) →
      acknowledge { s with ctl := c } = { acknowledge s with ctl := c })

/-! ### Whole-machine rules -/

/-- R20, R30, R40: which events can change each register of the two units and of the evaluation in flight; nothing
else can. -/
def Obligations.WritersOfEachRegister : Prop :=
  ∀ s t : State, s.wires.reset = none → step s = .next t →
    let cmdIs := fun p : Instr → Prop => ∃ w i, nextEvent s = some (.cmd w) ∧ decode w = some i ∧ p i
    let answered := ∃ v, nextEvent s = some (.qryRsp v)
    let loopStep := nextEvent s = some .tick ∨ nextEvent s = some .relayAck ∨ cmdIs (· = .htrStart)
    (t.ctl.setpoint ≠ s.ctl.setpoint →
      cmdIs fun i => (∃ v, i = .pidSetSetpoint v) ∨ (∃ v, i = .pidIncSetpoint v) ∨ ∃ v, i = .pidDecSetpoint v) ∧
    (t.ctl.kp ≠ s.ctl.kp ∨ t.ctl.ki ≠ s.ctl.ki ∨ t.ctl.kd ≠ s.ctl.kd → cmdIs fun i => ∃ p g d, i = .pidSetGains p g d) ∧
    (t.ctl.outMin ≠ s.ctl.outMin ∨ t.ctl.outMax ≠ s.ctl.outMax → cmdIs fun i => ∃ lo hi, i = .pidSetLimits lo hi) ∧
    (t.ctl.integral ≠ s.ctl.integral ∨ t.ctl.output ≠ s.ctl.output →
      answered ∨ cmdIs fun i => ∃ lo hi, i = .pidSetLimits lo hi) ∧
    (t.ctl.lastInput ≠ s.ctl.lastInput ∨ t.ctl.lastTime ≠ s.ctl.lastTime → answered) ∧
    (t.htr.phase ≠ s.htr.phase ∨ t.htr.onMs ≠ s.htr.onMs ∨ t.htr.offMs ≠ s.htr.offMs ∨ t.htr.tRem ≠ s.htr.tRem ∨
      t.htr.tWr ≠ s.htr.tWr ∨ t.htr.relayLevel ≠ s.htr.relayLevel ∨ t.htr.relayReq ≠ s.htr.relayReq → loopStep) ∧
    (t.htr.onTime ≠ s.htr.onTime → nextEvent s = some .tick) ∧
    (t.htr.relayState ≠ s.htr.relayState → nextEvent s = some .relayAck) ∧
    (t.htr.stopFlag ≠ s.htr.stopFlag → cmdIs fun i => i = .htrStart ∨ i = .htrStop) ∧
    (t.evalPending ≠ s.evalPending ∨ t.qryReq ≠ s.qryReq → answered ∨ cmdIs (· = .pidEval)) ∧
    (t.t0 ≠ s.t0 → cmdIs (· = .pidEval))

/-- R171, R174, R28: the frame of every command that is carried out or refused: what each unit's commands leave of the
other unit and of the rest of the machine. -/
def Obligations.CommandFrames : Prop :=
  ∀ (i : Instr) (s t : State), exec i s = .next t →
    t.time = s.time ∧ t.cfg = s.cfg ∧ t.cfgFault = s.cfgFault ∧ t.wires = s.wires ∧ t.arrivals = s.arrivals ∧
    (i ≠ .htrStart → i ≠ .htrStop → t.htr = s.htr) ∧
    (i = .htrStart ∨ i = .htrStop ∨ i = .pidEval ∨ (∃ idx, i = .getReg idx) → t.ctl = s.ctl) ∧
    (i ≠ .pidEval → t.evalPending = s.evalPending ∧ t.t0 = s.t0 ∧ t.qryReq = s.qryReq) ∧
    t.htr.onTime = s.htr.onTime ∧ t.htr.relayState = s.htr.relayState

/-- R177: neither wait has a step that gets past it: only `QRY_RSP` or `RESET` ends the first, only `RELAY_ACK` or
`RESET` the second, and while the first lasts no command is taken and no response is produced. -/
def Obligations.StuckUntilAnswered : Prop :=
  ∀ s t : State, Safe s → s.wires.reset = none → step s = .next t →
    (s.evalPending = true → (∀ v, nextEvent s ≠ some (.qryRsp v)) →
      t.evalPending = true ∧ t.ctl = s.ctl ∧ t.t0 = s.t0 ∧ t.rsp = none ∧ ∀ w, nextEvent s ≠ some (.cmd w)) ∧
    (s.htr.relayReq = true → nextEvent s ≠ some .relayAck →
      t.htr.relayReq = true ∧ t.htr.phase = s.htr.phase ∧ t.htr.relayLevel = s.htr.relayLevel ∧
      t.htr.tWr = s.htr.tWr ∧ t.htr.relayState = s.htr.relayState)

/-- R176: configuration fault mode is left only by reset; the loop stays stopped, the flag set, the relay wire 0, and
neither answer is ever enabled. -/
def Obligations.ConfigFaultModePersists : Prop :=
  ∀ s t : State, Safe s → s.cfgFault = true → s.wires.reset = none → step s = .next t →
    t.cfgFault = true ∧ t.htr.phase = .stopped ∧ t.htr.stopFlag = true ∧ t.htr.relayLevel = false ∧
    t.htr.onTime = s.htr.onTime ∧ t.evalPending = false ∧ t.htr.relayReq = false ∧ t.ctl = s.ctl ∧
    (t.time = if s.wires.tick then s.time + 1 else s.time)

/-- R113, R32 to R34, R38, R40, R142, R144, R176: the block is safe right after reset, under every parameters. -/
def Obligations.SafeAfterReset : Prop :=
  Safe State.reset ∧ ∀ cfg : Config, Safe (State.afterReset cfg)

/-- R113, R32 to R34, R38, R40, R142, R144, R176: every step, of every event, keeps a safe state safe. -/
def Obligations.StepKeepsSafe : Prop :=
  ∀ s t : State, Safe s → step s = .next t → Safe t

/-- R201: a block that is reset and never tuned never heats: from a cold safe state no step but a `PID_SET_GAINS` or
`PID_SET_LIMITS` command leads out of the cold states, whatever the sensor answers. -/
def Obligations.UntunedBlockStaysCold : Prop :=
  (∀ cfg, Cold (State.afterReset cfg)) ∧
  ∀ s t : State, Safe s → Cold s → step s = .next t →
    (∀ w i, nextEvent s = some (.cmd w) → decode w = some i →
      (∀ p g d, i ≠ .pidSetGains p g d) ∧ ∀ lo hi, i ≠ .pidSetLimits lo hi) →
    Cold t

/-- R96: an `fx` literal `num / den` is `floor(num / den · 65536)`, rejected outside the range of a register. -/
def Obligations.FxLiteralFloors : Prop :=
  ∀ (num : Int) (den : Nat), 0 < den →
    let raw := Int.fdiv (num * 65536) den
    (raw < -2 ^ 31 ∨ 2 ^ 31 - 1 < raw → fxLiteral num den = none) ∧
    (-2 ^ 31 ≤ raw ∧ raw ≤ 2 ^ 31 - 1 → ∃ w : Word, fxLiteral num den = some w ∧ w.toInt = raw)
end

