-- ==== Sys2Proof/Laws/State.lean ====
section
/-! SUPPORT. One lemma per field per update of the state, true by unfolding the update once: what each shared
operation writes and what it leaves. No later proof unfolds a record update. -/

namespace Sys2Proof.Machine

/-! ### `respond` -/
@[simp] theorem respond_ctl (code : RspCode) (data : Word) (s : State) : (respond code data s).ctl = s.ctl := (rfl)
@[simp] theorem respond_time (code : RspCode) (data : Word) (s : State) : (respond code data s).time = s.time := (rfl)
@[simp] theorem respond_err (code : RspCode) (data : Word) (s : State) : (respond code data s).err = s.err := (rfl)
@[simp] theorem respond_cfgFault (code : RspCode) (data : Word) (s : State) : (respond code data s).cfgFault = s.cfgFault := (rfl)
@[simp] theorem respond_evalPending (code : RspCode) (data : Word) (s : State) : (respond code data s).evalPending = s.evalPending := (rfl)
@[simp] theorem respond_t0 (code : RspCode) (data : Word) (s : State) : (respond code data s).t0 = s.t0 := (rfl)
@[simp] theorem respond_qryReq (code : RspCode) (data : Word) (s : State) : (respond code data s).qryReq = s.qryReq := (rfl)
@[simp] theorem respond_cfg (code : RspCode) (data : Word) (s : State) : (respond code data s).cfg = s.cfg := (rfl)
@[simp] theorem respond_rsp (code : RspCode) (data : Word) (s : State) : (respond code data s).rsp = some { status := code, data := data } := (rfl)
@[simp] theorem respond_wires (code : RspCode) (data : Word) (s : State) : (respond code data s).wires = s.wires := (rfl)
@[simp] theorem respond_arrivals (code : RspCode) (data : Word) (s : State) : (respond code data s).arrivals = s.arrivals := (rfl)
@[simp] theorem respond_htr (code : RspCode) (data : Word) (s : State) : (respond code data s).htr = s.htr := (rfl)

/-! ### `refuse` -/
@[simp] theorem refuse_ctl (c : ErrCode) (s : State) : (refuse c s).ctl = s.ctl := (rfl)
@[simp] theorem refuse_time (c : ErrCode) (s : State) : (refuse c s).time = s.time := (rfl)
@[simp] theorem refuse_err (c : ErrCode) (s : State) : (refuse c s).err = s.err ||| errBit c := (rfl)
@[simp] theorem refuse_cfgFault (c : ErrCode) (s : State) : (refuse c s).cfgFault = s.cfgFault := (rfl)
@[simp] theorem refuse_evalPending (c : ErrCode) (s : State) : (refuse c s).evalPending = s.evalPending := (rfl)
@[simp] theorem refuse_t0 (c : ErrCode) (s : State) : (refuse c s).t0 = s.t0 := (rfl)
@[simp] theorem refuse_qryReq (c : ErrCode) (s : State) : (refuse c s).qryReq = s.qryReq := (rfl)
@[simp] theorem refuse_cfg (c : ErrCode) (s : State) : (refuse c s).cfg = s.cfg := (rfl)
@[simp] theorem refuse_rsp (c : ErrCode) (s : State) : (refuse c s).rsp = some { status := .err c, data := 0 } := (rfl)
@[simp] theorem refuse_wires (c : ErrCode) (s : State) : (refuse c s).wires = s.wires := (rfl)
@[simp] theorem refuse_arrivals (c : ErrCode) (s : State) : (refuse c s).arrivals = s.arrivals := (rfl)
@[simp] theorem refuse_htr (c : ErrCode) (s : State) : (refuse c s).htr = s.htr := (rfl)

/-! ### `relayWrite` -/
@[simp] theorem relayWrite_ctl (level : Bool) (s : State) : (relayWrite level s).ctl = s.ctl := (rfl)
@[simp] theorem relayWrite_time (level : Bool) (s : State) : (relayWrite level s).time = s.time := (rfl)
@[simp] theorem relayWrite_err (level : Bool) (s : State) : (relayWrite level s).err = s.err := (rfl)
@[simp] theorem relayWrite_cfgFault (level : Bool) (s : State) : (relayWrite level s).cfgFault = s.cfgFault := (rfl)
@[simp] theorem relayWrite_evalPending (level : Bool) (s : State) : (relayWrite level s).evalPending = s.evalPending := (rfl)
@[simp] theorem relayWrite_t0 (level : Bool) (s : State) : (relayWrite level s).t0 = s.t0 := (rfl)
@[simp] theorem relayWrite_qryReq (level : Bool) (s : State) : (relayWrite level s).qryReq = s.qryReq := (rfl)
@[simp] theorem relayWrite_cfg (level : Bool) (s : State) : (relayWrite level s).cfg = s.cfg := (rfl)
@[simp] theorem relayWrite_rsp (level : Bool) (s : State) : (relayWrite level s).rsp = s.rsp := (rfl)
@[simp] theorem relayWrite_wires (level : Bool) (s : State) : (relayWrite level s).wires = s.wires := (rfl)
@[simp] theorem relayWrite_arrivals (level : Bool) (s : State) : (relayWrite level s).arrivals = s.arrivals := (rfl)
@[simp] theorem relayWrite_htr (level : Bool) (s : State) : (relayWrite level s).htr = { s.htr with relayLevel := level, relayReq := true, tWr := s.time } := (rfl)

/-! ### `setPhase` -/
@[simp] theorem setPhase_ctl (p : Phase) (s : State) : (setPhase p s).ctl = s.ctl := (rfl)
@[simp] theorem setPhase_time (p : Phase) (s : State) : (setPhase p s).time = s.time := (rfl)
@[simp] theorem setPhase_err (p : Phase) (s : State) : (setPhase p s).err = s.err := (rfl)
@[simp] theorem setPhase_cfgFault (p : Phase) (s : State) : (setPhase p s).cfgFault = s.cfgFault := (rfl)
@[simp] theorem setPhase_evalPending (p : Phase) (s : State) : (setPhase p s).evalPending = s.evalPending := (rfl)
@[simp] theorem setPhase_t0 (p : Phase) (s : State) : (setPhase p s).t0 = s.t0 := (rfl)
@[simp] theorem setPhase_qryReq (p : Phase) (s : State) : (setPhase p s).qryReq = s.qryReq := (rfl)
@[simp] theorem setPhase_cfg (p : Phase) (s : State) : (setPhase p s).cfg = s.cfg := (rfl)
@[simp] theorem setPhase_rsp (p : Phase) (s : State) : (setPhase p s).rsp = s.rsp := (rfl)
@[simp] theorem setPhase_wires (p : Phase) (s : State) : (setPhase p s).wires = s.wires := (rfl)
@[simp] theorem setPhase_arrivals (p : Phase) (s : State) : (setPhase p s).arrivals = s.arrivals := (rfl)
@[simp] theorem setPhase_htr (p : Phase) (s : State) : (setPhase p s).htr = { s.htr with phase := p } := (rfl)

/-! ### `startWait` -/
@[simp] theorem startWait_ctl (p : Phase) (ms : Word) (s : State) : (startWait p ms s).ctl = s.ctl := (rfl)
@[simp] theorem startWait_time (p : Phase) (ms : Word) (s : State) : (startWait p ms s).time = s.time := (rfl)
@[simp] theorem startWait_err (p : Phase) (ms : Word) (s : State) : (startWait p ms s).err = s.err := (rfl)
@[simp] theorem startWait_cfgFault (p : Phase) (ms : Word) (s : State) : (startWait p ms s).cfgFault = s.cfgFault := (rfl)
@[simp] theorem startWait_evalPending (p : Phase) (ms : Word) (s : State) : (startWait p ms s).evalPending = s.evalPending := (rfl)
@[simp] theorem startWait_t0 (p : Phase) (ms : Word) (s : State) : (startWait p ms s).t0 = s.t0 := (rfl)
@[simp] theorem startWait_qryReq (p : Phase) (ms : Word) (s : State) : (startWait p ms s).qryReq = s.qryReq := (rfl)
@[simp] theorem startWait_cfg (p : Phase) (ms : Word) (s : State) : (startWait p ms s).cfg = s.cfg := (rfl)
@[simp] theorem startWait_rsp (p : Phase) (ms : Word) (s : State) : (startWait p ms s).rsp = s.rsp := (rfl)
@[simp] theorem startWait_wires (p : Phase) (ms : Word) (s : State) : (startWait p ms s).wires = s.wires := (rfl)
@[simp] theorem startWait_arrivals (p : Phase) (ms : Word) (s : State) : (startWait p ms s).arrivals = s.arrivals := (rfl)
@[simp] theorem startWait_htr (p : Phase) (ms : Word) (s : State) : (startWait p ms s).htr = { s.htr with tRem := ms, phase := p } := (rfl)

/-! ### `requestOn` -/
@[simp] theorem requestOn_ctl (s : State) : (requestOn s).ctl = s.ctl := (rfl)
@[simp] theorem requestOn_time (s : State) : (requestOn s).time = s.time := (rfl)
@[simp] theorem requestOn_err (s : State) : (requestOn s).err = s.err := (rfl)
@[simp] theorem requestOn_cfgFault (s : State) : (requestOn s).cfgFault = s.cfgFault := (rfl)
@[simp] theorem requestOn_evalPending (s : State) : (requestOn s).evalPending = s.evalPending := (rfl)
@[simp] theorem requestOn_t0 (s : State) : (requestOn s).t0 = s.t0 := (rfl)
@[simp] theorem requestOn_qryReq (s : State) : (requestOn s).qryReq = s.qryReq := (rfl)
@[simp] theorem requestOn_cfg (s : State) : (requestOn s).cfg = s.cfg := (rfl)
@[simp] theorem requestOn_rsp (s : State) : (requestOn s).rsp = s.rsp := (rfl)
@[simp] theorem requestOn_wires (s : State) : (requestOn s).wires = s.wires := (rfl)
@[simp] theorem requestOn_arrivals (s : State) : (requestOn s).arrivals = s.arrivals := (rfl)
@[simp] theorem requestOn_htr (s : State) : (requestOn s).htr = { s.htr with relayLevel := true, relayReq := true, tWr := s.time, phase := .onReq } := (rfl)

/-! ### `requestOff` -/
@[simp] theorem requestOff_ctl (s : State) : (requestOff s).ctl = s.ctl := (rfl)
@[simp] theorem requestOff_time (s : State) : (requestOff s).time = s.time := (rfl)
@[simp] theorem requestOff_err (s : State) : (requestOff s).err = s.err := (rfl)
@[simp] theorem requestOff_cfgFault (s : State) : (requestOff s).cfgFault = s.cfgFault := (rfl)
@[simp] theorem requestOff_evalPending (s : State) : (requestOff s).evalPending = s.evalPending := (rfl)
@[simp] theorem requestOff_t0 (s : State) : (requestOff s).t0 = s.t0 := (rfl)
@[simp] theorem requestOff_qryReq (s : State) : (requestOff s).qryReq = s.qryReq := (rfl)
@[simp] theorem requestOff_cfg (s : State) : (requestOff s).cfg = s.cfg := (rfl)
@[simp] theorem requestOff_rsp (s : State) : (requestOff s).rsp = s.rsp := (rfl)
@[simp] theorem requestOff_wires (s : State) : (requestOff s).wires = s.wires := (rfl)
@[simp] theorem requestOff_arrivals (s : State) : (requestOff s).arrivals = s.arrivals := (rfl)
@[simp] theorem requestOff_htr (s : State) : (requestOff s).htr = { s.htr with relayLevel := false, relayReq := true, tWr := s.time, phase := .offReq } := (rfl)

/-! ### `requestFinalOff` -/
@[simp] theorem requestFinalOff_ctl (s : State) : (requestFinalOff s).ctl = s.ctl := (rfl)
@[simp] theorem requestFinalOff_time (s : State) : (requestFinalOff s).time = s.time := (rfl)
@[simp] theorem requestFinalOff_err (s : State) : (requestFinalOff s).err = s.err := (rfl)
@[simp] theorem requestFinalOff_cfgFault (s : State) : (requestFinalOff s).cfgFault = s.cfgFault := (rfl)
@[simp] theorem requestFinalOff_evalPending (s : State) : (requestFinalOff s).evalPending = s.evalPending := (rfl)
@[simp] theorem requestFinalOff_t0 (s : State) : (requestFinalOff s).t0 = s.t0 := (rfl)
@[simp] theorem requestFinalOff_qryReq (s : State) : (requestFinalOff s).qryReq = s.qryReq := (rfl)
@[simp] theorem requestFinalOff_cfg (s : State) : (requestFinalOff s).cfg = s.cfg := (rfl)
@[simp] theorem requestFinalOff_rsp (s : State) : (requestFinalOff s).rsp = s.rsp := (rfl)
@[simp] theorem requestFinalOff_wires (s : State) : (requestFinalOff s).wires = s.wires := (rfl)
@[simp] theorem requestFinalOff_arrivals (s : State) : (requestFinalOff s).arrivals = s.arrivals := (rfl)
@[simp] theorem requestFinalOff_htr (s : State) : (requestFinalOff s).htr = { s.htr with relayLevel := false, relayReq := true, tWr := s.time, phase := .finalReq } := (rfl)

/-! ### `setBudgets` -/
@[simp] theorem setBudgets_ctl (d : Int) (s : State) : (setBudgets d s).ctl = s.ctl := (rfl)
@[simp] theorem setBudgets_time (d : Int) (s : State) : (setBudgets d s).time = s.time := (rfl)
@[simp] theorem setBudgets_err (d : Int) (s : State) : (setBudgets d s).err = s.err := (rfl)
@[simp] theorem setBudgets_cfgFault (d : Int) (s : State) : (setBudgets d s).cfgFault = s.cfgFault := (rfl)
@[simp] theorem setBudgets_evalPending (d : Int) (s : State) : (setBudgets d s).evalPending = s.evalPending := (rfl)
@[simp] theorem setBudgets_t0 (d : Int) (s : State) : (setBudgets d s).t0 = s.t0 := (rfl)
@[simp] theorem setBudgets_qryReq (d : Int) (s : State) : (setBudgets d s).qryReq = s.qryReq := (rfl)
@[simp] theorem setBudgets_cfg (d : Int) (s : State) : (setBudgets d s).cfg = s.cfg := (rfl)
@[simp] theorem setBudgets_rsp (d : Int) (s : State) : (setBudgets d s).rsp = s.rsp := (rfl)
@[simp] theorem setBudgets_wires (d : Int) (s : State) : (setBudgets d s).wires = s.wires := (rfl)
@[simp] theorem setBudgets_arrivals (d : Int) (s : State) : (setBudgets d s).arrivals = s.arrivals := (rfl)
@[simp] theorem setBudgets_htr (d : Int) (s : State) : (setBudgets d s).htr = { s.htr with onMs := u32 (quantizeOn s.cfg d), offMs := u32 (s.cfg.periodMs.toNat - quantizeOn s.cfg d) } := (rfl)

/-! ### `countTick` -/
@[simp] theorem countTick_ctl (s : State) : (countTick s).ctl = s.ctl := (rfl)
@[simp] theorem countTick_time (s : State) : (countTick s).time = s.time + 1 := (rfl)
@[simp] theorem countTick_err (s : State) : (countTick s).err = s.err := (rfl)
@[simp] theorem countTick_cfgFault (s : State) : (countTick s).cfgFault = s.cfgFault := (rfl)
@[simp] theorem countTick_evalPending (s : State) : (countTick s).evalPending = s.evalPending := (rfl)
@[simp] theorem countTick_t0 (s : State) : (countTick s).t0 = s.t0 := (rfl)
@[simp] theorem countTick_qryReq (s : State) : (countTick s).qryReq = s.qryReq := (rfl)
@[simp] theorem countTick_cfg (s : State) : (countTick s).cfg = s.cfg := (rfl)
@[simp] theorem countTick_rsp (s : State) : (countTick s).rsp = s.rsp := (rfl)
@[simp] theorem countTick_wires (s : State) : (countTick s).wires = s.wires := (rfl)
@[simp] theorem countTick_arrivals (s : State) : (countTick s).arrivals = s.arrivals := (rfl)
@[simp] theorem countTick_htr (s : State) : (countTick s).htr = { s.htr with onTime := s.htr.onTime + (BitVec.ofBool s.htr.relayState).setWidth 32 } := (rfl)

/-! ### `countDown` -/
@[simp] theorem countDown_ctl (s : State) : (countDown s).ctl = s.ctl := (rfl)
@[simp] theorem countDown_time (s : State) : (countDown s).time = s.time := (rfl)
@[simp] theorem countDown_err (s : State) : (countDown s).err = s.err := (rfl)
@[simp] theorem countDown_cfgFault (s : State) : (countDown s).cfgFault = s.cfgFault := (rfl)
@[simp] theorem countDown_evalPending (s : State) : (countDown s).evalPending = s.evalPending := (rfl)
@[simp] theorem countDown_t0 (s : State) : (countDown s).t0 = s.t0 := (rfl)
@[simp] theorem countDown_qryReq (s : State) : (countDown s).qryReq = s.qryReq := (rfl)
@[simp] theorem countDown_cfg (s : State) : (countDown s).cfg = s.cfg := (rfl)
@[simp] theorem countDown_rsp (s : State) : (countDown s).rsp = s.rsp := (rfl)
@[simp] theorem countDown_wires (s : State) : (countDown s).wires = s.wires := (rfl)
@[simp] theorem countDown_arrivals (s : State) : (countDown s).arrivals = s.arrivals := (rfl)
@[simp] theorem countDown_htr (s : State) : (countDown s).htr = { s.htr with tRem := s.htr.tRem - 1 } := (rfl)

/-! ### `relayDone` -/
@[simp] theorem relayDone_ctl (level : Bool) (s : State) : (relayDone level s).ctl = s.ctl := (rfl)
@[simp] theorem relayDone_time (level : Bool) (s : State) : (relayDone level s).time = s.time := (rfl)
@[simp] theorem relayDone_err (level : Bool) (s : State) : (relayDone level s).err = s.err := (rfl)
@[simp] theorem relayDone_cfgFault (level : Bool) (s : State) : (relayDone level s).cfgFault = s.cfgFault := (rfl)
@[simp] theorem relayDone_evalPending (level : Bool) (s : State) : (relayDone level s).evalPending = s.evalPending := (rfl)
@[simp] theorem relayDone_t0 (level : Bool) (s : State) : (relayDone level s).t0 = s.t0 := (rfl)
@[simp] theorem relayDone_qryReq (level : Bool) (s : State) : (relayDone level s).qryReq = s.qryReq := (rfl)
@[simp] theorem relayDone_cfg (level : Bool) (s : State) : (relayDone level s).cfg = s.cfg := (rfl)
@[simp] theorem relayDone_rsp (level : Bool) (s : State) : (relayDone level s).rsp = s.rsp := (rfl)
@[simp] theorem relayDone_wires (level : Bool) (s : State) : (relayDone level s).wires = s.wires := (rfl)
@[simp] theorem relayDone_arrivals (level : Bool) (s : State) : (relayDone level s).arrivals = s.arrivals := (rfl)
@[simp] theorem relayDone_htr (level : Bool) (s : State) : (relayDone level s).htr = { s.htr with relayReq := false, relayState := level } := (rfl)

/-! ### `openQuery` -/
@[simp] theorem openQuery_ctl (s : State) : (openQuery s).ctl = s.ctl := (rfl)
@[simp] theorem openQuery_time (s : State) : (openQuery s).time = s.time := (rfl)
@[simp] theorem openQuery_err (s : State) : (openQuery s).err = s.err := (rfl)
@[simp] theorem openQuery_cfgFault (s : State) : (openQuery s).cfgFault = s.cfgFault := (rfl)
@[simp] theorem openQuery_evalPending (s : State) : (openQuery s).evalPending = true := (rfl)
@[simp] theorem openQuery_t0 (s : State) : (openQuery s).t0 = s.time := (rfl)
@[simp] theorem openQuery_qryReq (s : State) : (openQuery s).qryReq = true := (rfl)
@[simp] theorem openQuery_cfg (s : State) : (openQuery s).cfg = s.cfg := (rfl)
@[simp] theorem openQuery_rsp (s : State) : (openQuery s).rsp = s.rsp := (rfl)
@[simp] theorem openQuery_wires (s : State) : (openQuery s).wires = s.wires := (rfl)
@[simp] theorem openQuery_arrivals (s : State) : (openQuery s).arrivals = s.arrivals := (rfl)
@[simp] theorem openQuery_htr (s : State) : (openQuery s).htr = s.htr := (rfl)

/-! ### `storeSetpoint` -/
@[simp] theorem storeSetpoint_ctl (v : Word) (s : State) : (storeSetpoint v s).ctl = { s.ctl with setpoint := v } := (rfl)
@[simp] theorem storeSetpoint_time (v : Word) (s : State) : (storeSetpoint v s).time = s.time := (rfl)
@[simp] theorem storeSetpoint_err (v : Word) (s : State) : (storeSetpoint v s).err = s.err := (rfl)
@[simp] theorem storeSetpoint_cfgFault (v : Word) (s : State) : (storeSetpoint v s).cfgFault = s.cfgFault := (rfl)
@[simp] theorem storeSetpoint_evalPending (v : Word) (s : State) : (storeSetpoint v s).evalPending = s.evalPending := (rfl)
@[simp] theorem storeSetpoint_t0 (v : Word) (s : State) : (storeSetpoint v s).t0 = s.t0 := (rfl)
@[simp] theorem storeSetpoint_qryReq (v : Word) (s : State) : (storeSetpoint v s).qryReq = s.qryReq := (rfl)
@[simp] theorem storeSetpoint_cfg (v : Word) (s : State) : (storeSetpoint v s).cfg = s.cfg := (rfl)
@[simp] theorem storeSetpoint_rsp (v : Word) (s : State) : (storeSetpoint v s).rsp = some { status := .ok, data := v } := (rfl)
@[simp] theorem storeSetpoint_wires (v : Word) (s : State) : (storeSetpoint v s).wires = s.wires := (rfl)
@[simp] theorem storeSetpoint_arrivals (v : Word) (s : State) : (storeSetpoint v s).arrivals = s.arrivals := (rfl)
@[simp] theorem storeSetpoint_htr (v : Word) (s : State) : (storeSetpoint v s).htr = s.htr := (rfl)

/-! ### `completeEval` -/
@[simp] theorem completeEval_ctl (v : Word) (s : State) : (completeEval v s).ctl = evaluated s.ctl v s.t0 := (rfl)
@[simp] theorem completeEval_time (v : Word) (s : State) : (completeEval v s).time = s.time := (rfl)
@[simp] theorem completeEval_err (v : Word) (s : State) : (completeEval v s).err = s.err := (rfl)
@[simp] theorem completeEval_cfgFault (v : Word) (s : State) : (completeEval v s).cfgFault = s.cfgFault := (rfl)
@[simp] theorem completeEval_evalPending (v : Word) (s : State) : (completeEval v s).evalPending = false := (rfl)
@[simp] theorem completeEval_t0 (v : Word) (s : State) : (completeEval v s).t0 = s.t0 := (rfl)
@[simp] theorem completeEval_qryReq (v : Word) (s : State) : (completeEval v s).qryReq = false := (rfl)
@[simp] theorem completeEval_cfg (v : Word) (s : State) : (completeEval v s).cfg = s.cfg := (rfl)
@[simp] theorem completeEval_rsp (v : Word) (s : State) : (completeEval v s).rsp = some { status := .ok, data := u32 (newOutput s.ctl v.toInt) } := (rfl)
@[simp] theorem completeEval_wires (v : Word) (s : State) : (completeEval v s).wires = s.wires := (rfl)
@[simp] theorem completeEval_arrivals (v : Word) (s : State) : (completeEval v s).arrivals = s.arrivals := (rfl)
@[simp] theorem completeEval_htr (v : Word) (s : State) : (completeEval v s).htr = s.htr := (rfl)

/-! ### `takeEvent` -/
@[simp] theorem takeEvent_ctl (e : Event) (s : State) : (takeEvent e s).ctl = s.ctl := (rfl)
@[simp] theorem takeEvent_time (e : Event) (s : State) : (takeEvent e s).time = s.time := (rfl)
@[simp] theorem takeEvent_err (e : Event) (s : State) : (takeEvent e s).err = s.err := (rfl)
@[simp] theorem takeEvent_cfgFault (e : Event) (s : State) : (takeEvent e s).cfgFault = s.cfgFault := (rfl)
@[simp] theorem takeEvent_evalPending (e : Event) (s : State) : (takeEvent e s).evalPending = s.evalPending := (rfl)
@[simp] theorem takeEvent_t0 (e : Event) (s : State) : (takeEvent e s).t0 = s.t0 := (rfl)
@[simp] theorem takeEvent_qryReq (e : Event) (s : State) : (takeEvent e s).qryReq = s.qryReq := (rfl)
@[simp] theorem takeEvent_cfg (e : Event) (s : State) : (takeEvent e s).cfg = s.cfg := (rfl)
@[simp] theorem takeEvent_rsp (e : Event) (s : State) : (takeEvent e s).rsp = none := (rfl)
@[simp] theorem takeEvent_wires (e : Event) (s : State) : (takeEvent e s).wires = s.wires.without e := (rfl)
@[simp] theorem takeEvent_arrivals (e : Event) (s : State) : (takeEvent e s).arrivals = s.arrivals := (rfl)
@[simp] theorem takeEvent_htr (e : Event) (s : State) : (takeEvent e s).htr = s.htr := (rfl)

/-! ### `resetStep` -/
@[simp] theorem resetStep_ctl (cfg : Config) (s : State) : (resetStep cfg s).ctl = ControllerState.reset := (rfl)
@[simp] theorem resetStep_time (cfg : Config) (s : State) : (resetStep cfg s).time = 0 := (rfl)
@[simp] theorem resetStep_err (cfg : Config) (s : State) : (resetStep cfg s).err = 0 := (rfl)
@[simp] theorem resetStep_cfgFault (cfg : Config) (s : State) : (resetStep cfg s).cfgFault = !cfg.valid := (rfl)
@[simp] theorem resetStep_evalPending (cfg : Config) (s : State) : (resetStep cfg s).evalPending = false := (rfl)
@[simp] theorem resetStep_t0 (cfg : Config) (s : State) : (resetStep cfg s).t0 = 0 := (rfl)
@[simp] theorem resetStep_qryReq (cfg : Config) (s : State) : (resetStep cfg s).qryReq = false := (rfl)
@[simp] theorem resetStep_cfg (cfg : Config) (s : State) : (resetStep cfg s).cfg = cfg := (rfl)
@[simp] theorem resetStep_rsp (cfg : Config) (s : State) : (resetStep cfg s).rsp = none := (rfl)
@[simp] theorem resetStep_wires (cfg : Config) (s : State) : (resetStep cfg s).wires = Wires.idle := (rfl)
@[simp] theorem resetStep_arrivals (cfg : Config) (s : State) : (resetStep cfg s).arrivals = s.arrivals := (rfl)
@[simp] theorem resetStep_htr (cfg : Config) (s : State) : (resetStep cfg s).htr = HeaterState.reset := (rfl)

end Sys2Proof.Machine
end

