-- ==== Sys2Proof/Laws/Operands.lean ====
section
/-! SUPPORT. What the integer primitives, the narrowing to a register and the register map can do, said once. -/

namespace Sys2Proof.Machine

/-! ### Ranges of a register -/

theorem toInt_ge (w : Word) : -2147483648 ≤ w.toInt := by
  have := BitVec.le_toInt w; simpa using this

theorem toInt_le (w : Word) : w.toInt ≤ 2147483647 := by
  have := BitVec.toInt_lt (x := w); simp at this; omega

/-- A value that fits a register of kind `fx` is stored exactly (R10, R102). -/
theorem toInt_u32 {v : Int} (lo : -2147483648 ≤ v) (hi : v ≤ 2147483647) : (u32 v).toInt = v := by
  unfold u32
  rw [BitVec.toInt_ofInt]
  simp [Int.bmod]
  omega

/-- A value of 0 to 2^32−1 is stored exactly in a register of kind `u32`. -/
theorem toNat_u32 {v : Int} (lo : 0 ≤ v) (hi : v < 4294967296) : ((u32 v).toNat : Int) = v := by
  unfold u32
  rw [BitVec.toNat_ofInt]
  omega

theorem u32_toInt (w : Word) : u32 w.toInt = w := by simp [u32]

/-! ### `clamp` -/

/-- With ordered bounds, `clamp` is the middle value. -/
theorem clamp_eq {lo hi : Int} (v : Int) (h : lo ≤ hi) : clamp v lo hi = max lo (min hi v) := by
  unfold clamp; split <;> [skip; split] <;> omega

theorem clamp_ge {lo hi : Int} (v : Int) (h : lo ≤ hi) : lo ≤ clamp v lo hi := by
  rw [clamp_eq v h]; omega

theorem clamp_le {lo hi : Int} (v : Int) (h : lo ≤ hi) : clamp v lo hi ≤ hi := by
  rw [clamp_eq v h]; omega

/-- A clamped result always fits its register (R102 (d)). -/
theorem toInt_u32_clamp {lo hi : Word} (v : Int) (h : lo.toInt ≤ hi.toInt) :
    (u32 (clamp v lo.toInt hi.toInt)).toInt = clamp v lo.toInt hi.toInt := by
  have h1 := clamp_ge v h
  have h2 := clamp_le v h
  have h3 := toInt_ge lo
  have h4 := toInt_le hi
  exact toInt_u32 (by omega) (by omega)

/-! ### The configuration fault check (R173) -/

theorem unlessCfgFault_operational {s : State} (h : s.cfgFault = false) (t : State) : unlessCfgFault s t = t := by
  simp [unlessCfgFault, h]

theorem unlessCfgFault_faulted {s : State} (h : s.cfgFault = true) (t : State) :
    unlessCfgFault s t = refuse .fault s := by
  simp [unlessCfgFault, h]

/-! ### Division and `monus` -/

/-- R102: `floor_div(a, b) · b ≤ a < (floor_div(a, b) + 1) · b`. -/
theorem floorDiv_spec (a : Int) {b : Int} (h : 0 < b) : floorDiv a b * b ≤ a ∧ a < (floorDiv a b + 1) * b :=
  ⟨Int.ediv_mul_le a (by omega), Int.lt_ediv_add_one_mul_self a h⟩

/-- `floor_div` is Lean's flooring division for a positive divisor. -/
theorem floorDiv_eq_fdiv (a : Int) {b : Int} (h : 0 < b) : floorDiv a b = Int.fdiv a b :=
  (Int.fdiv_eq_ediv_of_nonneg a (by omega)).symm

/-- R11: `ceil_div(a, b)` is the least `q` with `q · b ≥ a`. -/
theorem ceilDiv_spec (a : Int) {b : Int} (h : 0 < b) : a ≤ ceilDiv a b * b ∧ (ceilDiv a b - 1) * b < a := by
  have h1 := Int.ediv_mul_le (-a) (b := b) (by omega)
  have h2 := Int.lt_ediv_add_one_mul_self (-a) h
  unfold ceilDiv
  constructor
  · rw [Int.neg_mul]; omega
  · have e : (-(-a / b) - 1) * b = -((-a / b + 1) * b) := by ring
    rw [e]; omega

theorem toNat_monus (a b : Word) : (monus a b).toNat = a.toNat - b.toNat := by
  unfold monus
  split
  · rename_i h; rw [BitVec.toNat_sub_of_le (BitVec.le_def.mpr h)]
  · simp; omega

theorem fitsFx_iff (v : Int) : fitsFx v = true ↔ -2147483648 ≤ v ∧ v ≤ 2147483647 := by
  simp [fitsFx]

/-! ### The register index space -/

/-- Every mapped register is found at its index (R61). -/
theorem regOfIndex_regIndex (r : Reg) : regOfIndex (regIndex r) = some r := by
  cases r <;> decide

theorem regIndex_of_regOfIndex {idx : Word} {r : Reg} (h : regOfIndex idx = some r) : regIndex r = idx := by
  simpa using List.find?_some h

/-- An index is unmapped exactly when no register has it (R61). -/
theorem regOfIndex_eq_none_iff (idx : Word) : regOfIndex idx = none ↔ ∀ r, regIndex r ≠ idx := by
  constructor
  · intro h r e
    have := regOfIndex_regIndex r
    rw [e, h] at this
    cases this
  · intro h
    rcases hr : regOfIndex idx with _ | r
    · rfl
    · exact absurd (regIndex_of_regOfIndex hr) (h r)

/-- The unmapped indices, as ranges (R61). -/
theorem regOfIndex_eq_none_iff_range (idx : Word) :
    regOfIndex idx = none ↔
      ¬ (idx.toNat ≤ 0x09 ∨ (0x10 ≤ idx.toNat ∧ idx.toNat ≤ 0x15) ∨ (0x20 ≤ idx.toNat ∧ idx.toNat ≤ 0x27)) := by
  rw [regOfIndex_eq_none_iff]
  constructor
  · intro h hr
    have key : ∃ r, (regIndex r).toNat = idx.toNat := by
      have hb : idx.toNat < 0x28 := by omega
      have : ∀ n < 0x28, (n ≤ 0x09 ∨ (0x10 ≤ n ∧ n ≤ 0x15) ∨ (0x20 ≤ n ∧ n ≤ 0x27)) →
          ∃ r ∈ allRegs, (regIndex r).toNat = n := by decide
      obtain ⟨r, _, e⟩ := this _ hb hr
      exact ⟨r, e⟩
    obtain ⟨r, e⟩ := key
    exact h r (BitVec.eq_of_toNat_eq e)
  · rintro h r rfl
    apply h
    cases r <;> decide

end Sys2Proof.Machine
end

