-- ==== Sys2Proof/Laws/Decode.lean ====
section
/-! SUPPORT. The fields of a command word and of an assembled one, and the decoder's cases. -/

namespace Sys2Proof

@[simp] theorem opcField_assemble (opc : BitVec 8) (a0 a1 a2 : Word) : opcField (assembleFields opc a0 a1 a2) = opc := by
  apply BitVec.eq_of_getLsbD_eq
  intro k hk
  simp only [opcField, assembleFields, BitVec.getLsbD_extractLsb', BitVec.getLsbD_append, hk, decide_true, Bool.true_and]
  simp [show ¬ 120 + k < 32 by omega, show ¬ 120 + k - 32 < 32 by omega,
    show ¬ 120 + k - 32 - 32 < 32 by omega, show ¬ 120 + k - 32 - 32 - 32 < 24 by omega]
  congr 1; omega

@[simp] theorem rsvField_assemble (opc : BitVec 8) (a0 a1 a2 : Word) : rsvField (assembleFields opc a0 a1 a2) = 0 := by
  apply BitVec.eq_of_getLsbD_eq
  intro k hk
  simp only [rsvField, assembleFields, BitVec.getLsbD_extractLsb', BitVec.getLsbD_append, hk, decide_true, Bool.true_and]
  simp [show ¬ 96 + k < 32 by omega, show ¬ 96 + k - 32 < 32 by omega, show ¬ 96 + k - 32 - 32 < 32 by omega,
    show 96 + k - 32 - 32 - 32 < 24 by omega]

@[simp] theorem a0Field_assemble (opc : BitVec 8) (a0 a1 a2 : Word) : a0Field (assembleFields opc a0 a1 a2) = a0 := by
  apply BitVec.eq_of_getLsbD_eq
  intro k hk
  simp only [a0Field, assembleFields, BitVec.getLsbD_extractLsb', BitVec.getLsbD_append, hk, decide_true, Bool.true_and]
  simp [show ¬ 64 + k < 32 by omega, show ¬ 64 + k - 32 < 32 by omega, show 64 + k - 32 - 32 < 32 by omega]
  congr 1; omega

@[simp] theorem a1Field_assemble (opc : BitVec 8) (a0 a1 a2 : Word) : a1Field (assembleFields opc a0 a1 a2) = a1 := by
  apply BitVec.eq_of_getLsbD_eq
  intro k hk
  simp only [a1Field, assembleFields, BitVec.getLsbD_extractLsb', BitVec.getLsbD_append, hk, decide_true, Bool.true_and]
  simp [show ¬ 32 + k < 32 by omega]
  omega

@[simp] theorem a2Field_assemble (opc : BitVec 8) (a0 a1 a2 : Word) : a2Field (assembleFields opc a0 a1 a2) = a2 := by
  apply BitVec.eq_of_getLsbD_eq
  intro k hk
  simp only [a2Field, assembleFields, BitVec.getLsbD_extractLsb', BitVec.getLsbD_append, hk, decide_true, Bool.true_and]
  simp
  omega

/-- An assembled word decodes through the opcode map alone. -/
theorem decode_assemble (opc : BitVec 8) (a0 a1 a2 : Word) :
    decode (assembleFields opc a0 a1 a2) = decodeFields opc a0 a1 a2 := by
  simp [decode]

/-- A word with `RSV` clear is its own fields, assembled. -/
theorem assemble_fields {w : CmdWord} (h : rsvField w = 0) :
    assembleFields (opcField w) (a0Field w) (a1Field w) (a2Field w) = w := by
  apply BitVec.eq_of_getLsbD_eq
  intro k hk
  have hr : ∀ j < 24, w.getLsbD (96 + j) = false := by
    intro j hj
    have := congrArg (·.getLsbD j) h
    simpa [rsvField, BitVec.getLsbD_extractLsb', hj] using this
  simp only [assembleFields, opcField, a0Field, a1Field, a2Field, BitVec.getLsbD_append, BitVec.getLsbD_extractLsb']
  by_cases h1 : k < 32
  · simp [h1]
  by_cases h2 : k < 64
  · simp [h1, show k - 32 < 32 by omega, show 32 + (k - 32) = k by omega]
  by_cases h3 : k < 96
  · simp [h1, show ¬ k - 32 < 32 by omega, show k - 32 - 32 < 32 by omega, show 64 + (k - 32 - 32) = k by omega]
  by_cases h4 : k < 120
  · have := hr (k - 96) (by omega)
    rw [show 96 + (k - 96) = k by omega] at this
    simp [h1, show ¬ k - 32 < 32 by omega, show ¬ k - 32 - 32 < 32 by omega, show k - 32 - 32 - 32 < 24 by omega, this]
  · simp [h1, show ¬ k - 32 < 32 by omega, show ¬ k - 32 - 32 < 32 by omega, show ¬ k - 32 - 32 - 32 < 24 by omega,
      show k - 32 - 32 - 32 - 24 < 8 by omega, show 120 + (k - 32 - 32 - 32 - 24) = k by omega]

/-! ### Groups of adjacent fields -/

theorem opc_rsv_bits (w : CmdWord) : w.extractLsb' 96 32 = opcField w ++ rsvField w := by
  apply BitVec.eq_of_getLsbD_eq
  intro k hk
  simp only [opcField, rsvField, BitVec.getLsbD_append, BitVec.getLsbD_extractLsb', hk, decide_true, Bool.true_and]
  by_cases h : k < 24
  · simp [h]
  · simp [h, show k - 24 < 8 by omega, show 120 + (k - 24) = 96 + k by omega]

theorem a0_a1_bits (w : CmdWord) : w.extractLsb' 32 64 = a0Field w ++ a1Field w := by
  apply BitVec.eq_of_getLsbD_eq
  intro k hk
  simp only [a0Field, a1Field, BitVec.getLsbD_append, BitVec.getLsbD_extractLsb', hk, decide_true, Bool.true_and]
  by_cases h : k < 32
  · simp [h]
  · simp [h, show k - 32 < 32 by omega, show 64 + (k - 32) = 32 + k by omega]

theorem a1_a2_bits (w : CmdWord) : w.extractLsb' 0 64 = a1Field w ++ a2Field w := by
  apply BitVec.eq_of_getLsbD_eq
  intro k hk
  simp only [a1Field, a2Field, BitVec.getLsbD_append, BitVec.getLsbD_extractLsb', hk, decide_true, Bool.true_and]
  by_cases h : k < 32
  · simp [h]
  · simp [h, show k - 32 < 32 by omega, show 32 + (k - 32) = k by omega]

theorem a0_a1_a2_bits (w : CmdWord) : w.extractLsb' 0 96 = (a0Field w ++ a1Field w ++ a2Field w : BitVec 96) := by
  apply BitVec.eq_of_getLsbD_eq
  intro k hk
  simp only [a0Field, a1Field, a2Field, BitVec.getLsbD_append, BitVec.getLsbD_extractLsb', hk, decide_true, Bool.true_and]
  by_cases h : k < 32
  · simp [h]
  · by_cases h2 : k < 64
    · simp [h, show k - 32 < 32 by omega, show 32 + (k - 32) = k by omega]
    · simp [h, show ¬ k - 32 < 32 by omega, show k - 32 - 32 < 32 by omega, show 64 + (k - 32 - 32) = k by omega]

/-- The nine cases of the decoder, each with its opcode (R83). -/
theorem decode_cases {w : CmdWord} {i : Instr} (h : decode w = some i) :
    rsvField w = 0 ∧
    ((opcField w = 0x01 ∧ i = .getReg (a0Field w)) ∨
     (opcField w = 0x10 ∧ i = .pidEval) ∨
     (opcField w = 0x11 ∧ i = .pidSetGains (a0Field w) (a1Field w) (a2Field w)) ∨
     (opcField w = 0x12 ∧ i = .pidSetLimits (a0Field w) (a1Field w)) ∨
     (opcField w = 0x13 ∧ i = .pidSetSetpoint (a0Field w)) ∨
     (opcField w = 0x14 ∧ i = .pidIncSetpoint (a0Field w)) ∨
     (opcField w = 0x15 ∧ i = .pidDecSetpoint (a0Field w)) ∨
     (opcField w = 0x20 ∧ i = .htrStart) ∨
     (opcField w = 0x21 ∧ i = .htrStop)) := by
  unfold decode at h
  split at h
  · rename_i hr
    refine ⟨hr, ?_⟩
    unfold decodeFields at h
    split_ifs at h <;> simp_all
  · cases h

/-- Legality of a word, on its fields (R84). -/
theorem legalWord_iff (w : CmdWord) :
    legalWord w = true ↔ (opcField w).toNat ∈ definedOpcodes ∧ rsvField w = 0 := by
  have ho : (opcField w).toNat = w.toNat / 2 ^ 120 := by
    simp only [opcField, BitVec.extractLsb'_toNat, Nat.shiftRight_eq_div_pow]
    exact Nat.mod_eq_of_lt (by have := w.isLt; omega)
  have hr : (rsvField w).toNat = w.toNat / 2 ^ 96 % 2 ^ 24 := by
    simp only [rsvField, BitVec.extractLsb'_toNat, Nat.shiftRight_eq_div_pow]
  have hz : rsvField w = 0 ↔ w.toNat / 2 ^ 96 % 2 ^ 24 = 0 := by
    rw [← hr]
    exact ⟨fun h => by rw [h]; rfl, fun h => BitVec.eq_of_toNat_eq (by simpa using h)⟩
  simp only [legalWord, opcDefined, rsvClear, Bool.and_eq_true, List.contains_iff_mem, beq_iff_eq, ho, hz]

/-! ### Serial carriage -/

theorem serialBytes_length (n v : Nat) : (serialBytes n v).length = n := by
  induction n with
  | zero => rfl
  | succ n ih => simp [serialBytes, ih]

/-- Byte `k` of `n`, counted from the first on the link. -/
theorem serialBytes_getElem? (n v k : Nat) (h : k < n) :
    (serialBytes n v)[k]? = some (BitVec.ofNat 8 (v / 256 ^ (n - 1 - k))) := by
  induction n generalizing k with
  | zero => omega
  | succ n ih =>
    cases k with
    | zero => simp [serialBytes]
    | succ k => simp only [serialBytes, List.getElem?_cons_succ]; rw [ih k (by omega)]; congr 4; omega

theorem serialValue_append_foldl (bytes : List Byte) (acc : Nat) :
    bytes.foldl (fun acc b => acc * 256 + b.toNat) acc = acc * 256 ^ bytes.length + serialValue bytes := by
  unfold serialValue
  induction bytes generalizing acc with
  | nil => simp
  | cons b bs ih =>
    simp only [List.foldl_cons, List.length_cons]
    rw [ih, ih (0 * 256 + b.toNat)]
    ring

/-- Bytes sent most significant first carry the value, modulo their number. -/
theorem serialValue_serialBytes (n v : Nat) : serialValue (serialBytes n v) = v % 256 ^ n := by
  induction n generalizing v with
  | zero => simp [serialBytes, serialValue, Nat.mod_one]
  | succ n ih =>
    have e : serialValue (serialBytes (n + 1) v)
        = (BitVec.ofNat 8 (v / 256 ^ n)).toNat * 256 ^ n + serialValue (serialBytes n v) := by
      conv_lhs => unfold serialValue
      simp only [serialBytes, List.foldl_cons]
      rw [serialValue_append_foldl, serialBytes_length]
      simp
    rw [e, ih]
    simp only [BitVec.toNat_ofNat]
    rw [show (2 : Nat) ^ 8 = 256 from rfl, pow_succ 256 n, Nat.mod_mul]
    ring

end Sys2Proof
end

