-- ==== Sys2Proof/Laws/Step.lean ====
section
/-! SUPPORT. What a step can do, said once: which event is taken, and the step of each. -/

namespace Sys2Proof.Machine

/-- The cases of a step, by the event it takes. -/
theorem step_cases {s t : State} (h : step s = .next t) :
    (∃ cfg, nextEvent s = some (.reset cfg) ∧ s.wires.reset = some cfg ∧ t = resetStep cfg (takeEvent (.reset cfg) s)) ∨
    (s.wires.reset = none ∧ s.wires.tick = true ∧ nextEvent s = some .tick ∧ t = tickStep (takeEvent .tick s)) ∨
    (s.wires.reset = none ∧ s.wires.tick = false ∧ nextEvent s = some .relayAck ∧ s.htr.relayReq = true ∧
      t = acknowledge (takeEvent .relayAck s)) ∨
    (∃ v, s.wires.reset = none ∧ s.wires.tick = false ∧ nextEvent s = some (.qryRsp v) ∧ s.evalPending = true ∧
      t = completeEval v (takeEvent (.qryRsp v) s)) ∨
    (∃ w, s.wires.reset = none ∧ s.wires.tick = false ∧ nextEvent s = some (.cmd w) ∧ s.evalPending = false ∧
      cmdStep w (takeEvent (.cmd w) s) = .next t) ∨
    (s.wires.reset = none ∧ s.wires.tick = false ∧ nextEvent s = none ∧ t = nextCycle s) := by
  unfold step at h
  rcases hr : s.wires.reset with _ | cfg
  · rcases ht : s.wires.tick with _ | _
    · rcases ha : s.wires.relayAck with _ | _
      · rcases hq : s.wires.qryRsp with _ | v
        · have e : nextEvent s = cmdEvent s := by simp [nextEvent, hr, ht, ha, hq]
          rw [e] at h ⊢
          by_cases hp : s.evalPending = true
          · have e' : cmdEvent s = none := by simp [cmdEvent, cmdReady, hp]
            rw [e'] at h ⊢
            simp only [Host.Outcome.next.injEq] at h
            simp [h]
          · rcases hc : s.wires.cmd with _ | w
            · have e' : cmdEvent s = none := by simp [cmdEvent, hc]
              rw [e'] at h ⊢
              simp only [Host.Outcome.next.injEq] at h
              simp [h]
            · have e' : cmdEvent s = some (.cmd w) := by simp [cmdEvent, cmdReady, hp, hr, hc]
              rw [e'] at h ⊢
              simp only [eventStep] at h
              simp_all
        · have e : nextEvent s = some (.qryRsp v) := by simp [nextEvent, hr, ht, ha, hq]
          rw [e] at h ⊢
          simp only [eventStep, qryRspStep, takeEvent_evalPending] at h
          by_cases hp : s.evalPending = true
          · simp only [if_pos hp, Host.Outcome.next.injEq] at h
            simp_all
          · simp [if_neg hp] at h
      · have e : nextEvent s = some .relayAck := by simp [nextEvent, hr, ht, ha]
        rw [e] at h ⊢
        simp only [eventStep, relayAckStep, takeEvent_htr] at h
        by_cases hp : s.htr.relayReq = true
        · simp only [if_pos hp, Host.Outcome.next.injEq] at h
          simp_all
        · simp [if_neg hp] at h
    · have e : nextEvent s = some .tick := by simp [nextEvent, hr, ht]
      rw [e] at h ⊢
      simp only [eventStep, Host.Outcome.next.injEq] at h
      simp [h]
  · have e : nextEvent s = some (.reset cfg) := by simp [nextEvent, hr]
    rw [e] at h ⊢
    simp only [eventStep, Host.Outcome.next.injEq] at h
    exact .inl ⟨cfg, rfl, rfl, h.symm⟩

/-- The `CMD` step: the decoded command's meaning, or `E_ILLEGAL`. -/
theorem cmdStep_cases {w : CmdWord} {s t : State} (h : cmdStep w s = .next t) :
    (∃ i, decode w = some i ∧ exec i s = .next t) ∨ (decode w = none ∧ t = refuse .illegal s) := by
  unfold cmdStep at h
  split at h
  · rename_i i hi; exact .inl ⟨i, hi, h⟩
  · rename_i hi; simp only [Host.Outcome.next.injEq] at h; exact .inr ⟨hi, h.symm⟩

/-- The meaning of every command, as cases: refused by the configuration fault check, refused by its own check, or
carried out. -/
theorem exec_cases {i : Instr} {s t : State} (h : exec i s = .next t) :
    (s.cfgFault = true ∧ (∀ idx, i ≠ .getReg idx) ∧ t = refuse .fault s) ∨
    (∃ idx r, i = .getReg idx ∧ regOfIndex idx = some r ∧ t = respond .ok (readReg s r) s) ∨
    (∃ idx, i = .getReg idx ∧ regOfIndex idx = none ∧ t = refuse .arg s) ∨
    (s.cfgFault = false ∧
      ((i = .pidEval ∧ (elapsed s).toNat < s.cfg.sampleMs.toNat ∧ t = respond .okCached s.ctl.output s) ∨
       (i = .pidEval ∧ s.cfg.sampleMs.toNat ≤ (elapsed s).toNat ∧ t = openQuery s) ∨
       (∃ p g d, i = .pidSetGains p g d ∧ fitsFx (scaledKi s.cfg g) = true ∧ fitsFx (scaledKd s.cfg d) = true ∧
          t = respond .ok 0
            { s with ctl := { s.ctl with kp := p, ki := u32 (scaledKi s.cfg g), kd := u32 (scaledKd s.cfg d) } }) ∨
       (∃ p g d, i = .pidSetGains p g d ∧ ¬ (fitsFx (scaledKi s.cfg g) = true ∧ fitsFx (scaledKd s.cfg d) = true) ∧
          t = refuse .range s) ∨
       (∃ lo hi, i = .pidSetLimits lo hi ∧ hi.toInt < lo.toInt ∧ t = refuse .arg s) ∨
       (∃ lo hi, i = .pidSetLimits lo hi ∧ lo.toInt ≤ hi.toInt ∧
          t = respond .ok (withLimits lo hi s.ctl).output { s with ctl := withLimits lo hi s.ctl }) ∨
       (∃ v, i = .pidSetSetpoint v ∧ v.toInt < 0 ∧ t = refuse .arg s) ∨
       (∃ v, i = .pidSetSetpoint v ∧ 0 ≤ v.toInt ∧ t = storeSetpoint v s) ∨
       (∃ d, i = .pidIncSetpoint d ∧ t = storeClampedSetpoint (s.ctl.setpoint.toInt + d.toInt) s) ∨
       (∃ d, i = .pidDecSetpoint d ∧ t = storeClampedSetpoint (s.ctl.setpoint.toInt - d.toInt) s) ∨
       (i = .htrStart ∧ s.htr.phase = .stopped ∧
          t = periodStart (respond .ok 0 { s with htr := { s.htr with stopFlag := false } })) ∨
       (i = .htrStart ∧ s.htr.phase ≠ .stopped ∧ t = refuse .busy s) ∨
       (i = .htrStop ∧ t = respond .ok 0 { s with htr := { s.htr with stopFlag := true } }))) := by
  cases i with
  | getReg idx =>
    simp only [exec, execGetReg] at h
    split at h <;> simp only [Host.Outcome.next.injEq] at h <;> simp_all
  | pidEval =>
    simp only [exec, execPidEval, unlessCfgFault, Host.Outcome.next.injEq] at h
    split_ifs at h <;> simp_all
  | pidSetGains p g d =>
    simp only [exec, execPidSetGains, unlessCfgFault, Host.Outcome.next.injEq] at h
    split_ifs at h with h1 h2
    · simp_all
    · simp only [Bool.and_eq_true] at h2; simp_all
    · simp only [Bool.and_eq_true] at h2
      refine .inr (.inr (.inr ⟨by simpa using h1, .inr (.inr (.inr (.inl ⟨p, g, d, rfl, h2, h.symm⟩)))⟩))
  | pidSetLimits lo hi =>
    simp only [exec, execPidSetLimits, unlessCfgFault, Host.Outcome.next.injEq] at h
    split_ifs at h <;> simp_all
  | pidSetSetpoint v =>
    simp only [exec, execPidSetSetpoint, unlessCfgFault, Host.Outcome.next.injEq] at h
    split_ifs at h <;> simp_all
  | pidIncSetpoint d =>
    simp only [exec, execPidIncSetpoint, unlessCfgFault, Host.Outcome.next.injEq] at h
    split_ifs at h <;> simp_all
  | pidDecSetpoint d =>
    simp only [exec, execPidDecSetpoint, unlessCfgFault, Host.Outcome.next.injEq] at h
    split_ifs at h <;> simp_all
  | htrStart =>
    simp only [exec, execHtrStart, unlessCfgFault, Host.Outcome.next.injEq] at h
    split_ifs at h <;> simp_all
  | htrStop =>
    simp only [exec, execHtrStop, unlessCfgFault, Host.Outcome.next.injEq] at h
    split_ifs at h <;> simp_all

end Sys2Proof.Machine
end

