-- ==== Sys2Proof/Laws/Pid.lean ====
section
/-! SUPPORT. What an evaluation, new limits and a setpoint command write: exact values in bounds
(spec/40_pid_commands.md R106, R109, R111, R113). -/

namespace Sys2Proof.Machine

/-- The new integral is stored exactly (R102 (d)). -/
theorem toInt_newIntegral {c : ControllerState} (h : c.outMin.toInt ≤ c.outMax.toInt) (inp : Int) :
    (u32 (newIntegral c inp)).toInt = newIntegral c inp :=
  toInt_u32_clamp _ h

/-- The new output is stored exactly (R102 (d)). -/
theorem toInt_newOutput {c : ControllerState} (h : c.outMin.toInt ≤ c.outMax.toInt) (inp : Int) :
    (u32 (newOutput c inp)).toInt = newOutput c inp :=
  toInt_u32_clamp _ h

/-- R106 corner (a), SV §8: both results lie in the bounds, whatever the input. -/
theorem evaluated_in_bounds {c : ControllerState} (h : c.outMin.toInt ≤ c.outMax.toInt) (inp : Int) :
    c.outMin.toInt ≤ newIntegral c inp ∧ newIntegral c inp ≤ c.outMax.toInt ∧
    c.outMin.toInt ≤ newOutput c inp ∧ newOutput c inp ≤ c.outMax.toInt :=
  ⟨clamp_ge _ h, clamp_le _ h, clamp_ge _ h, clamp_le _ h⟩

/-- An evaluation keeps R113. -/
theorem evaluated_safe {c : ControllerState} (h : ControllerSafe c) (v t0 : Word) :
    ControllerSafe (evaluated c v t0) := by
  obtain ⟨h1, h2, h3, h4⟩ := evaluated_in_bounds h.limits_ordered v.toInt
  constructor <;>
    simp only [evaluated, toInt_newIntegral h.limits_ordered, toInt_newOutput h.limits_ordered] <;>
    first | assumption | exact h.limits_ordered | exact h.setpoint_nonneg

/-- New limits keep R113: `INTEGRAL` and `OUTPUT` are pulled into them. -/
theorem withLimits_safe {c : ControllerState} (h : ControllerSafe c) {lo hi : Word} (hl : lo.toInt ≤ hi.toInt) :
    ControllerSafe (withLimits lo hi c) := by
  constructor <;> simp only [withLimits, toInt_u32_clamp _ hl] <;>
    first | exact hl | exact clamp_ge _ hl | exact clamp_le _ hl | exact h.setpoint_nonneg

/-- Storing a setpoint that is not negative keeps R113. -/
theorem setpoint_safe {c : ControllerState} (h : ControllerSafe c) {v : Word} (hv : 0 ≤ v.toInt) :
    ControllerSafe { c with setpoint := v } :=
  ⟨h.limits_ordered, h.integral_above, h.integral_below, h.output_above, h.output_below, hv⟩

/-- New gains keep R113: it says nothing of them. -/
theorem gains_safe {c : ControllerState} (h : ControllerSafe c) (p i d : Word) :
    ControllerSafe { c with kp := p, ki := i, kd := d } :=
  ⟨h.limits_ordered, h.integral_above, h.integral_below, h.output_above, h.output_below, h.setpoint_nonneg⟩

/-- R8: what a passed check of the parameters says. -/
theorem valid_iff (c : Config) : c.valid = true ↔
    c.sampleMs ≠ 0 ∧ c.periodMs ≠ 0 ∧ c.halfCycleMs ≠ 0 ∧ 0 ≤ c.spMin.toInt ∧ c.spMin.toInt ≤ c.spMax.toInt := by
  simp [Config.valid, and_assoc]

/-- R111, R112: the clamped setpoint is exact and not negative. -/
theorem clampedSetpoint {cfg : Config} (h : cfg.valid = true) (v : Int) :
    (u32 (clamp v cfg.spMin.toInt cfg.spMax.toInt)).toInt = max cfg.spMin.toInt (min cfg.spMax.toInt v) ∧
    0 ≤ (u32 (clamp v cfg.spMin.toInt cfg.spMax.toInt)).toInt := by
  obtain ⟨_, _, _, h0, hl⟩ := (valid_iff cfg).mp h
  rw [toInt_u32_clamp v hl, clamp_eq v hl]
  omega

/-- R105: elapsed time is the difference modulo 2^32. -/
theorem toNat_elapsed (a b : Word) : (a - b).toNat = (a.toNat + 2 ^ 32 - b.toNat) % 2 ^ 32 := by
  rw [BitVec.toNat_sub]
  have := b.isLt
  congr 1; omega

end Sys2Proof.Machine
end

