-- ==== Sys2Proof/Laws/Heater.lean ====
section
/-! SUPPORT. What the quantizer gives and what the chained procedures can do (spec/41_heater_actuator.md R131, R132,
R135 to R137, R140). -/

namespace Sys2Proof.Machine

theorem toNat_pos_of_ne {w : Word} (h : w ≠ 0) : 0 < w.toNat := by
  rcases Nat.eq_zero_or_pos w.toNat with e | e
  · exact absurd (BitVec.eq_of_toNat_eq (by simpa using e)) h
  · exact e

theorem eq_zero_of_toNat {w : Word} (h : w.toNat = 0) : w = 0 := BitVec.eq_of_toNat_eq (by simpa using h)

/-! ### The quantizer -/

/-- R131, first branch. -/
theorem quantizeOn_below {c : Config} {d : Int} (h : d * c.periodMs.toNat < c.halfCycleMs.toNat * 65536) :
    quantizeOn c d = 0 := by
  simp [quantizeOn, h]

/-- R131, second branch, with the number of half-cycles named. -/
theorem quantizeOn_above {c : Config} {d : Int} (h : ¬ d * c.periodMs.toNat < c.halfCycleMs.toNat * 65536) :
    quantizeOn c d = min (c.periodMs.toNat : Int)
      (ceilDiv (d * c.periodMs.toNat) (c.halfCycleMs.toNat * 65536) * c.halfCycleMs.toNat) := by
  simp [quantizeOn, h]

/-- R131: the on-interval is 0 to `PERIOD_MS`. -/
theorem quantizeOn_range (c : Config) (d : Int) (hh : c.halfCycleMs ≠ 0) :
    0 ≤ quantizeOn c d ∧ quantizeOn c d ≤ c.periodMs.toNat := by
  have hpos : (0 : Int) < c.halfCycleMs.toNat := by have := toNat_pos_of_ne hh; omega
  by_cases h : d * c.periodMs.toNat < c.halfCycleMs.toNat * 65536
  · rw [quantizeOn_below h]; omega
  · rw [quantizeOn_above h]
    have hc := (ceilDiv_spec (d * c.periodMs.toNat) (b := c.halfCycleMs.toNat * 65536) (by omega)).1
    have h1 : 0 < ceilDiv (d * c.periodMs.toNat) (c.halfCycleMs.toNat * 65536) * (c.halfCycleMs.toNat * 65536) := by
      omega
    have h2 : 0 < ceilDiv (d * c.periodMs.toNat) (c.halfCycleMs.toNat * 65536) :=
      pos_of_mul_pos_left h1 (by omega)
    have h3 := mul_pos h2 hpos
    omega

/-- The stored budgets are the quantizer's, exactly; their sum is the period (R132 (a)). -/
theorem budgets_exact (c : Config) (d : Int) (hh : c.halfCycleMs ≠ 0) :
    ((u32 (quantizeOn c d)).toNat : Int) = quantizeOn c d ∧
    ((u32 (c.periodMs.toNat - quantizeOn c d)).toNat : Int) = c.periodMs.toNat - quantizeOn c d := by
  have h := quantizeOn_range c d hh
  have hp := c.periodMs.isLt
  exact ⟨toNat_u32 (by omega) (by omega), toNat_u32 (by omega) (by omega)⟩

/-- The on-budget is the whole period or a multiple of the half-cycle (R132 (d), R32). -/
theorem quantizeOn_multiple (c : Config) (d : Int) :
    quantizeOn c d = c.periodMs.toNat ∨ (c.halfCycleMs.toNat : Int) ∣ quantizeOn c d := by
  by_cases h : d * c.periodMs.toNat < c.halfCycleMs.toNat * 65536
  · rw [quantizeOn_below h]; exact .inr (dvd_zero _)
  · rw [quantizeOn_above h]
    rcases le_total (c.periodMs.toNat : Int)
      (ceilDiv (d * c.periodMs.toNat) (c.halfCycleMs.toNat * 65536) * c.halfCycleMs.toNat) with h' | h'
    · exact .inl (min_eq_left h')
    · rw [min_eq_right h']; exact .inr (Dvd.intro_left _ rfl)

/-- R132 (b): no output, no on-interval. -/
theorem quantizeOn_nonpos {c : Config} {d : Int} (hh : c.halfCycleMs ≠ 0) (hd : d ≤ 0) : quantizeOn c d = 0 := by
  have hpos := toNat_pos_of_ne hh
  apply quantizeOn_below
  have : d * c.periodMs.toNat ≤ 0 := mul_nonpos_of_nonpos_of_nonneg hd (by omega)
  omega

/-! ### Frames -/

theorem beginOn_frame (s : State) : ∃ h : HeaterState, beginOn s = { s with htr := h } ∧
    h.relayState = s.htr.relayState ∧ h.stopFlag = s.htr.stopFlag ∧ h.onTime = s.htr.onTime := by
  unfold beginOn; split <;> exact ⟨_, rfl, rfl, rfl, rfl⟩

theorem beginOff_frame (s : State) : ∃ h : HeaterState, beginOff s = { s with htr := h } ∧
    h.relayState = s.htr.relayState ∧ h.stopFlag = s.htr.stopFlag ∧ h.onTime = s.htr.onTime := by
  unfold beginOff; split <;> exact ⟨_, rfl, rfl, rfl, rfl⟩

/-- The chained procedures touch HeaterState alone, and of it neither the relay belief nor the stop flag nor
`ON_TIME`. -/
theorem chain_frame (n : Nat) (p : Proc) (s : State) : ∃ h : HeaterState, chain n p s = { s with htr := h } ∧
    h.relayState = s.htr.relayState ∧ h.stopFlag = s.htr.stopFlag ∧ h.onTime = s.htr.onTime := by
  induction n generalizing p s with
  | zero => exact ⟨s.htr, rfl, rfl, rfl, rfl⟩
  | succ n ih =>
    cases p with
    | periodStart =>
      simp only [chain]
      split
      · exact ⟨_, rfl, rfl, rfl, rfl⟩
      · obtain ⟨h, e, h1, h2, h3⟩ := ih .onEntry (setBudgets s.ctl.output.toInt s)
        exact ⟨h, by rw [e]; rfl, h1, h2, h3⟩
    | onEntry =>
      simp only [chain]
      split
      · exact ih .offEntry s
      · exact beginOn_frame s
    | offEntry =>
      simp only [chain]
      split
      · exact ih .periodStart s
      · exact beginOff_frame s

/-- The chained procedures read no register of the PID unit but `OUTPUT` (R70). -/
theorem chain_ctl (n : Nat) (p : Proc) (s : State) {c : ControllerState} (h : c.output = s.ctl.output) :
    chain n p { s with ctl := c } = { chain n p s with ctl := c } := by
  induction n generalizing p s with
  | zero => rfl
  | succ n ih =>
    cases p with
    | periodStart =>
      simp only [chain, h]
      split
      · rfl
      · exact ih .onEntry (setBudgets s.ctl.output.toInt s) h
    | onEntry =>
      simp only [chain]
      split
      · exact ih .offEntry s h
      · unfold beginOn; split <;> rfl
    | offEntry =>
      simp only [chain]
      split
      · exact ih .periodStart s h
      · unfold beginOff; split <;> rfl

/-! ### The outcomes -/

/-- Three calls carry `period_start` to its end: the fresh pair has a non-zero part (R140). -/
theorem chain_periodStart (n : Nat) (s : State) (hp : s.cfg.periodMs ≠ 0) (hh : s.cfg.halfCycleMs ≠ 0) :
    chain (n + 3) .periodStart s =
      if s.htr.stopFlag then requestFinalOff s
      else if (setBudgets s.ctl.output.toInt s).htr.onMs = 0 then beginOff (setBudgets s.ctl.output.toInt s)
      else beginOn (setBudgets s.ctl.output.toInt s) := by
  have key : (setBudgets s.ctl.output.toInt s).htr.onMs = 0 → (setBudgets s.ctl.output.toInt s).htr.offMs ≠ 0 := by
    intro h0 h1
    obtain ⟨e1, e2⟩ := budgets_exact s.cfg s.ctl.output.toInt hh
    simp only [setBudgets_htr] at h0 h1
    rw [h0] at e1
    rw [h1] at e2
    have := toNat_pos_of_ne hp
    simp at e1 e2
    omega
  simp only [chain]
  by_cases hs : s.htr.stopFlag = true
  · simp [hs]
  · by_cases h0 : (setBudgets s.ctl.output.toInt s).htr.onMs = 0
    · simp only [if_neg hs, if_pos h0, if_neg (key h0)]
    · simp only [if_neg hs, if_neg h0]

/-- `period_start()` (R135, R136). -/
theorem periodStart_eq (s : State) (hp : s.cfg.periodMs ≠ 0) (hh : s.cfg.halfCycleMs ≠ 0) :
    periodStart s =
      if s.htr.stopFlag then requestFinalOff s
      else if (setBudgets s.ctl.output.toInt s).htr.onMs = 0 then beginOff (setBudgets s.ctl.output.toInt s)
      else beginOn (setBudgets s.ctl.output.toInt s) :=
  chain_periodStart 1 s hp hh

/-- `off_entry()` (R137). -/
theorem offEntry_eq (s : State) (hp : s.cfg.periodMs ≠ 0) (hh : s.cfg.halfCycleMs ≠ 0) :
    offEntry s = if s.htr.offMs = 0 then periodStart s else beginOff s := by
  rw [periodStart_eq s hp hh, ← chain_periodStart 0 s hp hh]
  rfl

/-- The budgets a period start leaves. -/
theorem setBudgets_safe (s : State) (d : Int) (hh : s.cfg.halfCycleMs ≠ 0) :
    BudgetsSafe s.cfg (setBudgets d s).htr := by
  obtain ⟨e1, e2⟩ := budgets_exact s.cfg d hh
  have hm := quantizeOn_multiple s.cfg d
  constructor
  · simp only [setBudgets_htr]; omega
  · simp only [setBudgets_htr]
    rcases hm with h | h
    · left; omega
    · right; rw [← e1] at h; exact_mod_cast h

/-- A non-zero off-interval begins safely. -/
theorem beginOff_safe (s : State) (h : s.htr.offMs ≠ 0) (hr : s.htr.relayState = false → s.htr.relayLevel = false)
    (hq : s.htr.relayReq = false) : PhaseSafe (beginOff s).htr := by
  have := toNat_pos_of_ne h
  unfold beginOff
  split
  · rename_i hs; simp [PhaseSafe, hs, this]
  · rename_i hs
    simp only [Bool.not_eq_true] at hs
    simp [PhaseSafe, hs, hr hs, hq, this]

/-- A non-zero on-interval begins safely. -/
theorem beginOn_safe (s : State) (h : s.htr.onMs ≠ 0) (hr : s.htr.relayState = true → s.htr.relayLevel = true)
    (hq : s.htr.relayReq = false) : PhaseSafe (beginOn s).htr := by
  have := toNat_pos_of_ne h
  unfold beginOn
  split
  · rename_i hs; simp [PhaseSafe, hs, hr hs, hq, this]
  · rename_i hs
    simp only [Bool.not_eq_true] at hs
    simp [PhaseSafe, hs, this]

theorem beginOff_budgets {cfg : Config} {s : State} (h : BudgetsSafe cfg s.htr) : BudgetsSafe cfg (beginOff s).htr := by
  unfold beginOff; split <;> exact ⟨h.1, h.2⟩

theorem beginOn_budgets {cfg : Config} {s : State} (h : BudgetsSafe cfg s.htr) : BudgetsSafe cfg (beginOn s).htr := by
  unfold beginOn; split <;> exact ⟨h.1, h.2⟩

/-- `period_start()` ends in a safe phase with safe budgets, from a relay at rest. -/
theorem periodStart_safe (s : State) (hp : s.cfg.periodMs ≠ 0) (hh : s.cfg.halfCycleMs ≠ 0)
    (hr : s.htr.relayLevel = s.htr.relayState) (hq : s.htr.relayReq = false)
    (hb : s.htr.stopFlag = true → BudgetsSafe s.cfg s.htr) :
    PhaseSafe (periodStart s).htr ∧ BudgetsSafe s.cfg (periodStart s).htr := by
  rw [periodStart_eq s hp hh]
  have hbud := setBudgets_safe s s.ctl.output.toInt hh
  by_cases hs : s.htr.stopFlag = true
  · have := hb hs
    simp only [hs, if_true]
    exact ⟨by simp [PhaseSafe, hs], ⟨this.1, this.2⟩⟩
  · simp only [if_neg hs]
    by_cases h0 : (setBudgets s.ctl.output.toInt s).htr.onMs = 0
    · simp only [if_pos h0]
      refine ⟨beginOff_safe _ ?_ ?_ hq, beginOff_budgets hbud⟩
      · intro h1
        have h2 := hbud.sum_is_period
        rw [h0, h1] at h2
        have := toNat_pos_of_ne hp
        simp at h2; omega
      · intro h; simp_all
    · simp only [if_neg h0]
      exact ⟨beginOn_safe _ h0 (by intro h; simp_all) hq, beginOn_budgets hbud⟩

/-- `off_entry()` ends in a safe phase with safe budgets, from a relay at rest. -/
theorem offEntry_safe (s : State) (hp : s.cfg.periodMs ≠ 0) (hh : s.cfg.halfCycleMs ≠ 0)
    (hr : s.htr.relayLevel = s.htr.relayState) (hq : s.htr.relayReq = false) (hb : BudgetsSafe s.cfg s.htr) :
    PhaseSafe (offEntry s).htr ∧ BudgetsSafe s.cfg (offEntry s).htr := by
  rw [offEntry_eq s hp hh]
  by_cases h0 : s.htr.offMs = 0
  · simp only [if_pos h0]
    exact periodStart_safe s hp hh hr hq fun _ => hb
  · simp only [if_neg h0]
    exact ⟨beginOff_safe _ h0 (by intro h; simp_all) hq, beginOff_budgets hb⟩

/-! ### The `TICK` and `RELAY_ACK` steps -/

/-- The cases of the `TICK` step (R139). -/
theorem tickStep_cases (s : State) :
    (s.htr.phase ≠ .onWait ∧ s.htr.phase ≠ .offWait ∧ tickStep s = countTick s) ∨
    ((s.htr.phase = .onWait ∨ s.htr.phase = .offWait) ∧ s.htr.tRem ≠ 1 ∧ tickStep s = countDown (countTick s)) ∨
    (s.htr.phase = .onWait ∧ s.htr.tRem = 1 ∧ tickStep s = offEntry (countDown (countTick s))) ∨
    (s.htr.phase = .offWait ∧ s.htr.tRem = 1 ∧ tickStep s = periodStart (countDown (countTick s))) := by
  have hz : (countDown (countTick s)).htr.tRem = 0 ↔ s.htr.tRem = 1 := by
    simp only [countDown_htr, countTick_htr]
    constructor
    · intro h; rw [BitVec.sub_eq_iff_eq_add] at h; simpa using h
    · intro h; rw [h]; rfl
  unfold tickStep
  simp only [hz]
  rcases hp : s.htr.phase <;> simp [hp] <;> by_cases h1 : s.htr.tRem = 1#32 <;> simp [h1]

/-- A `TICK` touches `TIME` and HeaterState alone, and of it neither the relay belief nor the stop flag. -/
theorem tickStep_frame (s : State) : ∃ h : HeaterState, tickStep s = { s with time := s.time + 1, htr := h } ∧
    h.relayState = s.htr.relayState ∧ h.stopFlag = s.htr.stopFlag ∧
    h.onTime = s.htr.onTime + (BitVec.ofBool s.htr.relayState).setWidth 32 := by
  rcases tickStep_cases s with ⟨_, _, e⟩ | ⟨_, _, e⟩ | ⟨_, _, e⟩ | ⟨_, _, e⟩
  · exact ⟨_, e, rfl, rfl, rfl⟩
  · exact ⟨_, e, rfl, rfl, rfl⟩
  · obtain ⟨h, e', h1, h2, h3⟩ := chain_frame 4 .offEntry (countDown (countTick s))
    exact ⟨h, by rw [e, offEntry, e']; rfl, h1, h2, h3⟩
  · obtain ⟨h, e', h1, h2, h3⟩ := chain_frame 4 .periodStart (countDown (countTick s))
    exact ⟨h, by rw [e, periodStart, e']; rfl, h1, h2, h3⟩

/-- The cases of the `RELAY_ACK` step (R138). -/
theorem acknowledge_cases (s : State) :
    (s.htr.phase = .onReq ∧ (relayLatency s).toNat < s.htr.onMs.toNat ∧
      acknowledge s = startWait .onWait (monus s.htr.onMs (relayLatency s)) (relayDone true s)) ∨
    (s.htr.phase = .onReq ∧ s.htr.onMs.toNat ≤ (relayLatency s).toNat ∧
      acknowledge s = offEntry (startWait .onReq 0 (relayDone true s))) ∨
    (s.htr.phase = .offReq ∧ (relayLatency s).toNat < s.htr.offMs.toNat ∧
      acknowledge s = startWait .offWait (monus s.htr.offMs (relayLatency s)) (relayDone false s)) ∨
    (s.htr.phase = .offReq ∧ s.htr.offMs.toNat ≤ (relayLatency s).toNat ∧
      acknowledge s = periodStart (startWait .offReq 0 (relayDone false s))) ∨
    (s.htr.phase = .finalReq ∧ acknowledge s = setPhase .stopped (relayDone false s)) ∨
    ((s.htr.phase = .stopped ∨ s.htr.phase = .onWait ∨ s.htr.phase = .offWait) ∧
      acknowledge s = relayDone s.htr.relayState s) := by
  have hz : ∀ a b : Word, monus a b = 0 ↔ a.toNat ≤ b.toNat := by
    intro a b
    have := toNat_monus a b
    constructor
    · intro h; rw [h] at this; simp at this; omega
    · intro h; apply eq_zero_of_toNat; omega
  unfold acknowledge
  rcases hp : s.htr.phase
  · simp
  · by_cases h : s.htr.onMs.toNat ≤ (relayLatency s).toNat
    · simp only [(hz _ _).mpr h]; simp [h]
    · have h' := mt (hz _ _).mp h
      simp only [if_neg h']; simp; left; omega
  · simp
  · by_cases h : s.htr.offMs.toNat ≤ (relayLatency s).toNat
    · simp only [(hz _ _).mpr h]; simp [h]
    · have h' := mt (hz _ _).mp h
      simp only [if_neg h']; simp; left; omega
  · simp
  · simp

/-- A `RELAY_ACK` touches HeaterState alone, and of it neither the stop flag nor `ON_TIME`. -/
theorem acknowledge_frame (s : State) : ∃ h : HeaterState, acknowledge s = { s with htr := h } ∧
    h.stopFlag = s.htr.stopFlag ∧ h.onTime = s.htr.onTime := by
  rcases acknowledge_cases s with ⟨_, _, e⟩ | ⟨_, _, e⟩ | ⟨_, _, e⟩ | ⟨_, _, e⟩ | ⟨_, e⟩ | ⟨_, e⟩
  · exact ⟨_, e, rfl, rfl⟩
  · obtain ⟨h, e', h1, h2, h3⟩ := chain_frame 4 .offEntry (startWait .onReq 0 (relayDone true s))
    exact ⟨h, by rw [e, offEntry, e']; rfl, h2, h3⟩
  · exact ⟨_, e, rfl, rfl⟩
  · obtain ⟨h, e', h1, h2, h3⟩ := chain_frame 4 .periodStart (startWait .offReq 0 (relayDone false s))
    exact ⟨h, by rw [e, periodStart, e']; rfl, h2, h3⟩
  · exact ⟨_, e, rfl, rfl⟩
  · exact ⟨_, e, rfl, rfl⟩

end Sys2Proof.Machine
end

