-- ==== Sys2Proof/Laws/Frames.lean ====
section
/-! SUPPORT. What no command and no step but its own event touches, said once. -/

namespace Sys2Proof.Machine

/-- No command touches `TIME`, the parameters, the wires, `ON_TIME` or the relay belief. -/
theorem exec_frame {i : Instr} {s t : State} (h : exec i s = .next t) :
    t.time = s.time ∧ t.cfg = s.cfg ∧ t.cfgFault = s.cfgFault ∧ t.wires = s.wires ∧ t.arrivals = s.arrivals ∧
    t.htr.onTime = s.htr.onTime ∧ t.htr.relayState = s.htr.relayState := by
  rcases exec_cases h with ⟨_, _, rfl⟩ | ⟨_, _, _, _, rfl⟩ | ⟨_, _, _, rfl⟩ | ⟨_, h⟩
  · simp
  · simp
  · simp
  · rcases h with ⟨_, _, rfl⟩ | ⟨_, _, rfl⟩ | ⟨_, _, _, _, _, _, rfl⟩ | ⟨_, _, _, _, _, rfl⟩ |
      ⟨_, _, _, _, rfl⟩ | ⟨_, _, _, _, rfl⟩ | ⟨_, _, _, rfl⟩ | ⟨_, _, _, rfl⟩ | ⟨_, _, rfl⟩ | ⟨_, _, rfl⟩ |
      ⟨_, _, rfl⟩ | ⟨_, _, rfl⟩ |
      ⟨_, rfl⟩ <;> try (simp [storeClampedSetpoint]; done)
    obtain ⟨h, e, h1, h2, h3⟩ :=
      chain_frame 4 .periodStart (respond .ok 0 { s with htr := { s.htr with stopFlag := false } })
    rw [periodStart, e]; simp [h1, h3]

/-- Nor does the `CMD` step of any word. -/
theorem cmdStep_frame {w : CmdWord} {s t : State} (h : cmdStep w s = .next t) :
    t.time = s.time ∧ t.cfg = s.cfg ∧ t.cfgFault = s.cfgFault ∧ t.wires = s.wires ∧ t.arrivals = s.arrivals ∧
    t.htr.onTime = s.htr.onTime ∧ t.htr.relayState = s.htr.relayState := by
  rcases cmdStep_cases h with ⟨i, _, h⟩ | ⟨_, rfl⟩
  · exact exec_frame h
  · simp

/-- The end of a clock cycle touches no register. -/
theorem nextCycle_frame (s : State) : ∃ w a, nextCycle s = { s with rsp := none, wires := w, arrivals := a } := by
  unfold nextCycle; rcases s.arrivals <;> exact ⟨_, _, rfl⟩

/-- A command that answers leaves `ERR` alone or is refused. -/
theorem exec_err {i : Instr} {s t : State} (hs : s.rsp = none) (h : exec i s = .next t) :
    (t.err = s.err ∧ ∀ c d, t.rsp ≠ some { status := .err c, data := d }) ∨ (∃ c, t = refuse c s) := by
  rcases exec_cases h with ⟨_, _, rfl⟩ | ⟨_, _, _, _, rfl⟩ | ⟨_, _, _, rfl⟩ | ⟨_, h⟩
  · exact .inr ⟨_, rfl⟩
  · simp
  · exact .inr ⟨_, rfl⟩
  · rcases h with ⟨_, _, rfl⟩ | ⟨_, _, rfl⟩ | ⟨_, _, _, _, _, _, rfl⟩ | ⟨_, _, _, _, _, rfl⟩ |
      ⟨_, _, _, _, rfl⟩ | ⟨_, _, _, _, rfl⟩ | ⟨_, _, _, rfl⟩ | ⟨_, _, _, rfl⟩ | ⟨_, _, rfl⟩ | ⟨_, _, rfl⟩ |
      ⟨_, _, rfl⟩ | ⟨_, _, rfl⟩ |
      ⟨_, rfl⟩ <;> try (first | exact .inr ⟨_, rfl⟩ | (left; simp [storeClampedSetpoint, hs]; done))
    obtain ⟨h, e, h1, h2, h3⟩ :=
      chain_frame 4 .periodStart (respond .ok 0 { s with htr := { s.htr with stopFlag := false } })
    rw [periodStart, e]; simp

/-- `off_entry()` writes HeaterState alone. -/
theorem offEntry_htr (s : State) : ∃ h, offEntry s = { s with htr := h } := by
  obtain ⟨h, e, _⟩ := chain_frame 4 .offEntry s
  exact ⟨h, e⟩

/-- `period_start()` writes HeaterState alone. -/
theorem periodStart_htr (s : State) : ∃ h, periodStart s = { s with htr := h } := by
  obtain ⟨h, e, _⟩ := chain_frame 4 .periodStart s
  exact ⟨h, e⟩

end Sys2Proof.Machine
end

