-- ==== Sys2Proof/Laws/PerInstr.lean ====
section
/-! SUPPORT. Statements made per constructor of `Instr`. -/

namespace Sys2Proof.Laws.EncodeLegal

/-- The canonical encoding of a command is a legal word (spec/30_encoding.md R84, R85). -/
def Statement (i : Instr) : Prop := legalWord (encode i) = true

/-- A word assembled with a defined opcode is legal: its `RSV` is zero. -/
theorem assembled {opc : BitVec 8} (h : opc.toNat ∈ definedOpcodes) (a0 a1 a2 : Word) :
    legalWord (assembleFields opc a0 a1 a2) = true := by
  rw [legalWord_iff, opcField_assemble, rsvField_assemble]
  exact ⟨h, rfl⟩

theorem getReg (idx : Word) : Statement (.getReg idx) := assembled (by decide) _ _ _

theorem pidEval : Statement .pidEval := assembled (by decide) _ _ _

theorem pidSetGains (gainP gainI gainD : Word) : Statement (.pidSetGains gainP gainI gainD) :=
  assembled (by decide) _ _ _

theorem pidSetLimits (min max : Word) : Statement (.pidSetLimits min max) := assembled (by decide) _ _ _

theorem pidSetSetpoint (value : Word) : Statement (.pidSetSetpoint value) := assembled (by decide) _ _ _

theorem pidIncSetpoint (delta : Word) : Statement (.pidIncSetpoint delta) := assembled (by decide) _ _ _

theorem pidDecSetpoint (delta : Word) : Statement (.pidDecSetpoint delta) := assembled (by decide) _ _ _

theorem htrStart : Statement .htrStart := assembled (by decide) _ _ _

theorem htrStop : Statement .htrStop := assembled (by decide) _ _ _

end Sys2Proof.Laws.EncodeLegal
end

