-- ==== Sys2Proof/Laws/Safety.lean ====
section
/-! SUPPORT. What keeps a state safe: the events of the actuator loop, a response, a refusal, a new ControllerState. -/

namespace Sys2Proof.Machine

/-- A running loop has passed the check of its parameters (R8, R176). -/
theorem Safe.running {s : State} (h : Safe s) (hp : s.htr.phase ≠ .stopped) :
    s.cfgFault = false ∧ s.cfg.periodMs ≠ 0 ∧ s.cfg.halfCycleMs ≠ 0 ∧ BudgetsSafe s.cfg s.htr := by
  have hf : s.cfgFault = false := by
    rcases hc : s.cfgFault with _ | _
    · rfl
    · exact absurd (h.fault_stopped hc) hp
  have hv : s.cfg.valid = true := by have := h.fault_is_check; rw [hf] at this; simpa using this.symm
  obtain ⟨_, h1, h2, _, _⟩ := (valid_iff _).mp hv
  refine ⟨hf, h1, h2, ?_⟩
  rcases h.budgets with hb | ⟨_, _, e⟩
  · exact hb
  · exact absurd e hp

/-- Taking an event off its wire keeps a state safe. -/
theorem takeEvent_safe {s : State} (h : Safe s) (e : Event) : Safe (takeEvent e s) :=
  ⟨h.controller, h.phase, h.budgets, h.fault_is_check, h.fault_stopped, h.fault_no_query, h.query_wire, h.query_gate,
    fun _ => rfl, h.err_reserved⟩

/-- A new HeaterState and `TIME` keep a state safe if the phase and the budgets are, in a block that is not faulted. -/
theorem Safe.withHeater {s t : State} (h : Safe s) (hf : s.cfgFault = false) (hp : PhaseSafe t.htr)
    (hb : BudgetsSafe s.cfg t.htr) (e : ∃ time h', t = { s with time := time, htr := h' }) : Safe t := by
  obtain ⟨time, h', rfl⟩ := e
  exact ⟨h.controller, hp, .inl hb, h.fault_is_check, (by intro e; rw [hf] at e; cases e), h.fault_no_query,
    h.query_wire, h.query_gate, h.query_silent, h.err_reserved⟩

/-- A refusal keeps a state safe, no query being open. -/
theorem refuse_safe {s : State} (h : Safe s) (hp : s.evalPending = false) (c : ErrCode) : Safe (refuse c s) := by
  refine ⟨h.controller, h.phase, h.budgets, h.fault_is_check, h.fault_stopped, h.fault_no_query,
    h.query_wire, h.query_gate, (by intro e; simp [hp] at e), ?_⟩
  simp only [refuse_err, BitVec.toNat_or]
  exact Nat.or_lt_two_pow (n := 5) h.err_reserved (by cases c <;> decide)

/-- A response keeps a state safe, no query being open. -/
theorem respond_safe {s : State} (h : Safe s) (hp : s.evalPending = false) (c : RspCode) (d : Word) :
    Safe (respond c d s) :=
  ⟨h.controller, h.phase, h.budgets, h.fault_is_check, h.fault_stopped, h.fault_no_query, h.query_wire, h.query_gate,
    (by intro e; simp [hp] at e), h.err_reserved⟩

/-- A safe ControllerState may replace another, no query being open. -/
theorem ctl_safe {s : State} (h : Safe s) (hp : s.evalPending = false) {c : ControllerState} (hc : ControllerSafe c) :
    Safe { s with ctl := c } :=
  ⟨hc, h.phase, h.budgets, h.fault_is_check, h.fault_stopped, h.fault_no_query, h.query_wire,
    (by intro e; simp [hp] at e), h.query_silent, h.err_reserved⟩

theorem two_le_of_ne_one {w : Word} (h : w ≠ 1) (h0 : 0 < w.toNat) : 2 ≤ w.toNat := by
  by_contra hc
  apply h; apply BitVec.eq_of_toNat_eq; simp; omega

/-- A `TICK` keeps a state safe. -/
theorem tickStep_safe {s : State} (h : Safe s) : Safe (tickStep s) := by
  have hp := h.phase
  rcases tickStep_cases s with ⟨h1, h2, e⟩ | ⟨h1, h2, e⟩ | ⟨h1, h2, e⟩ | ⟨h1, h2, e⟩ <;> rw [e]
  · refine ⟨h.controller, ?_, ?_, h.fault_is_check, h.fault_stopped, h.fault_no_query, h.query_wire, h.query_gate,
      h.query_silent, h.err_reserved⟩
    · unfold PhaseSafe at hp ⊢
      simp only [countTick_htr]
      rcases hh : s.htr.phase <;> rw [hh] at hp <;> simp_all
    · rcases h.budgets with hb | hb
      · exact .inl ⟨hb.1, hb.2⟩
      · exact .inr hb
  · obtain ⟨hf, _, _, hb⟩ := h.running (by rcases h1 with h1 | h1 <;> rw [h1] <;> decide)
    refine h.withHeater hf ?_ ⟨hb.1, hb.2⟩ ⟨_, _, rfl⟩
    unfold PhaseSafe at hp ⊢
    have hs : ∀ (n : Nat), 0 < s.htr.tRem.toNat → s.htr.tRem.toNat ≤ n →
        0 < (s.htr.tRem - 1).toNat ∧ (s.htr.tRem - 1).toNat ≤ n := by
      intro n h0 h1
      have := two_le_of_ne_one h2 h0
      rw [BitVec.toNat_sub_of_le (by rw [BitVec.le_def]; simp; omega)]; simp; omega
    rcases h1 with h1 | h1 <;> rw [h1] at hp <;> simp only [countDown, countTick, h1] <;>
      exact ⟨hp.1, hp.2.1, hp.2.2.1, hs _ hp.2.2.2.1 hp.2.2.2.2⟩
  · obtain ⟨hf, p1, p2, hb⟩ := h.running (by rw [h1]; decide)
    unfold PhaseSafe at hp; rw [h1] at hp
    obtain ⟨a, b⟩ := offEntry_safe (countDown (countTick s)) p1 p2 (by simp [hp.1, hp.2.1])
      hp.2.2.1 ⟨hb.1, hb.2⟩
    obtain ⟨h', e'⟩ := offEntry_htr (countDown (countTick s))
    exact h.withHeater hf a b ⟨_, _, e'⟩
  · obtain ⟨hf, p1, p2, hb⟩ := h.running (by rw [h1]; decide)
    unfold PhaseSafe at hp; rw [h1] at hp
    obtain ⟨a, b⟩ := periodStart_safe (countDown (countTick s)) p1 p2 (by simp [hp.1, hp.2.1])
      hp.2.2.1 (fun _ => ⟨hb.1, hb.2⟩)
    obtain ⟨h', e'⟩ := periodStart_htr (countDown (countTick s))
    exact h.withHeater hf a b ⟨_, _, e'⟩

/-- A `RELAY_ACK` of a pending write keeps a state safe. -/
theorem acknowledge_safe {s : State} (h : Safe s) (hq : s.htr.relayReq = true) : Safe (acknowledge s) := by
  have hp := h.phase
  unfold PhaseSafe at hp
  rcases acknowledge_cases s with ⟨h1, h2, e⟩ | ⟨h1, h2, e⟩ | ⟨h1, h2, e⟩ | ⟨h1, h2, e⟩ |
    ⟨h1, e⟩ | ⟨h1, e⟩ <;> rw [e]
  · obtain ⟨hf, p1, p2, hb⟩ := h.running (by rw [h1]; decide)
    rw [h1] at hp
    refine h.withHeater hf ?_ ⟨hb.1, hb.2⟩ ⟨_, _, rfl⟩
    have := toNat_monus s.htr.onMs (relayLatency s)
    simp [PhaseSafe, hp, this]; omega
  · obtain ⟨hf, p1, p2, hb⟩ := h.running (by rw [h1]; decide)
    rw [h1] at hp
    obtain ⟨a, b⟩ := offEntry_safe (startWait .onReq 0 (relayDone true s)) p1 p2 (by simp [hp]) rfl ⟨hb.1, hb.2⟩
    obtain ⟨h', e'⟩ := offEntry_htr (startWait .onReq 0 (relayDone true s))
    exact h.withHeater hf a b ⟨_, _, e'⟩
  · obtain ⟨hf, p1, p2, hb⟩ := h.running (by rw [h1]; decide)
    rw [h1] at hp
    refine h.withHeater hf ?_ ⟨hb.1, hb.2⟩ ⟨_, _, rfl⟩
    have := toNat_monus s.htr.offMs (relayLatency s)
    simp [PhaseSafe, hp, this]; omega
  · obtain ⟨hf, p1, p2, hb⟩ := h.running (by rw [h1]; decide)
    rw [h1] at hp
    obtain ⟨a, b⟩ := periodStart_safe (startWait .offReq 0 (relayDone false s)) p1 p2 (by simp [hp]) rfl
      (fun _ => ⟨hb.1, hb.2⟩)
    obtain ⟨h', e'⟩ := periodStart_htr (startWait .offReq 0 (relayDone false s))
    exact h.withHeater hf a b ⟨_, _, e'⟩
  · obtain ⟨hf, p1, p2, hb⟩ := h.running (by rw [h1]; decide)
    rw [h1] at hp
    refine h.withHeater hf ?_ ⟨hb.1, hb.2⟩ ⟨_, _, rfl⟩
    simp [PhaseSafe, hp]
  · exfalso
    rcases h1 with h1 | h1 | h1 <;> rw [h1] at hp <;> simp [hq] at hp

end Sys2Proof.Machine
end

