-- ==== Sys2Proof/Tests/Slice0.lean ====
section
/-! SUPPORT. Tests: expected results are the spec's own vectors (spec/95_test_vectors.md, cited by row), or worked out
by hand from the cited rule. After them, for every obligation with hypotheses, a state and operands that meet them. -/

namespace Sys2Proof.Tests

open Sys2Proof.Machine

/-! ### Helpers: small states -/

/-- The next state of a step, if there is one. -/
def nextOf : Result → Option State
  | .next t => some t
  | .fault _ => none
  | .refused _ => none

/-- A field of the next state, if there is one. -/
def after {α : Type} (o : Result) (f : State → α) : Option α := (nextOf o).map f

/-- Right after reset, with another `SAMPLE_MS`. -/
def sampled (ms : Word) : State := State.afterReset { Config.reference with sampleMs := ms }

/-- In configuration fault mode: `SAMPLE_MS` is 0 (section 4.4, first row). -/
def faulted : State := sampled 0

/-- Between acceptance and completion of an evaluation (section 2.2), with the tuning of row EV2. -/
def pending : State :=
  { sampled 100 with
    time := 507, evalPending := true, t0 := 500, qryReq := true
    ctl := { setpoint := 0x10000, kp := 0x8000, ki := 0xCCC, kd := 0x28000, outMin := 0xFFFF0000, outMax := 0x10000,
             integral := 0xFFFFF99A, lastInput := 0x18000, output := 0, lastTime := 0 } }

/-- The actuator in a phase, with the budgets 100 and 100 and the output 0x8000 (sections 3.2 to 3.4). -/
def loop (phase : Phase) (time tRem : Word) (stopFlag relayState relayLevel relayReq : Bool) : State :=
  { State.reset with
    time := time
    ctl := { ControllerState.reset with output := 0x8000 }
    htr := { HeaterState.reset with
      phase := phase, onMs := 100, offMs := 100, tRem := tRem, tWr := 1000, stopFlag := stopFlag
      relayState := relayState, relayLevel := relayLevel, relayReq := relayReq } }

def onReq (time : Word) : State := loop .onReq time 0 false false true true
def onWait (tRem : Word) : State := loop .onWait 1098 tRem false true true false
def offReq (time : Word) : State := loop .offReq time 0 false true false true
def offWait (tRem : Word) : State := loop .offWait 1199 tRem false false false false
def finalReq : State := loop .finalReq 1004 0 true true false true
def stopped : State := loop .stopped 1000 0 true false false false

/-- With one `TICK`, one `RELAY_ACK`, one `QRY_RSP`, one `RESET` or one command word on the wires. -/
def ticking (s : State) : State := { s with wires := { Wires.idle with tick := true } }
def acking (s : State) : State := { s with wires := { Wires.idle with relayAck := true } }
def answering (v : Word) (s : State) : State := { s with wires := { Wires.idle with qryRsp := some v } }
def resetting (c : Config) (s : State) : State := { s with wires := { Wires.idle with reset := some c } }
def commanding (w : CmdWord) (s : State) : State := { s with wires := Wires.command w }

/-! ### WellFormed: an ill-formed term for each check, refused -/

/-- Section 4.2: a reserved opcode. -/
theorem test_reserved_opcode_refused :
    opcDefined 0x16000000000100000000000000000000#128 = false ∧ legalWord 0x16000000000100000000000000000000#128 = false ∧
    decode 0x16000000000100000000000000000000#128 = none := by decide

/-- Section 4.2: `RSV` not zero. -/
theorem test_rsv_not_zero_refused :
    rsvClear 0x10800000000000000000000000000000#128 = false ∧ legalWord 0x10800000000000000000000000000000#128 = false ∧
    decode 0x01000100000000110000000000000000#128 = none := by decide

/-- Section 4.4: each of the five conditions, violated alone. -/
theorem test_config_check_refuses_each :
    Config.valid { Config.reference with sampleMs := 0 } = false ∧
    Config.valid { Config.reference with periodMs := 0 } = false ∧
    Config.valid { Config.reference with halfCycleMs := 0 } = false ∧
    Config.valid { Config.reference with spMin := 0xFFFFFFFF } = false ∧
    Config.valid { Config.reference with spMin := 0x00320000, spMax := 0x00280000 } = false := by decide

/-- Section 4.4: the accepted rows. -/
theorem test_config_check_accepts :
    Config.valid { Config.reference with spMin := 0x00280000, spMax := 0x00280000 } = true ∧
    Config.valid ⟨1, 1, 1, 0, 0⟩ = true ∧ Config.valid { Config.reference with periodMs := 205 } = true := by decide

/-! ### Decode -/

/-- Sections 4.1, 4.2: the system command; ignored fields do not matter. -/
theorem test_decode_system :
    decode 0x0100000000000010AAAAAAAA55555555#128 = some (.getReg 0x10) ∧
    decode 0x01000000FFFFFFFF0000000000000000#128 = some (.getReg 0xFFFFFFFF) := by decide

/-- Section 2: the PID unit's words. -/
theorem test_decode_pid :
    decode 0x10000000DEADBEEF12345678FFFFFFFF#128 = some .pidEval ∧
    decode 0x1100000000008000FFFFFD7000000000#128 = some (.pidSetGains 0x8000 0xFFFFFD70 0) ∧
    decode 0x12000000000000000000800000000000#128 = some (.pidSetLimits 0 0x8000) ∧
    decode 0x13000000FFFF00000000000000000000#128 = some (.pidSetSetpoint 0xFFFF0000) ∧
    decode 0x14000000000100000000000000000000#128 = some (.pidIncSetpoint 0x10000) ∧
    decode 0x15000000000080000000000000000000#128 = some (.pidDecSetpoint 0x8000) := by decide

/-- Section 3.4: the actuator's words. -/
theorem test_decode_heater :
    decode 0x20000000000000000000000000000000#128 = some .htrStart ∧
    decode 0x21000000000000000000000000000000#128 = some .htrStop ∧
    decode 0x22000000000000000000000000000000#128 = none := by decide

/-- R85: the canonical encodings, zero in the fields a command does not take. -/
theorem test_encode_words :
    encode (.getReg 0x11) = 0x01000000000000110000000000000000#128 ∧
    encode .pidEval = 0x10000000000000000000000000000000#128 ∧
    encode (.pidSetGains 0x8000 0x8000 0x20000) = 0x11000000000080000000800000020000#128 ∧
    encode (.pidSetLimits 0xFFFF0000 0x10000) = 0x12000000FFFF00000001000000000000#128 ∧
    encode .htrStop = 0x21000000000000000000000000000000#128 := by decide

/-- The opcode table's numbering: one 128-bit word, bits above the row's are zero, and no word is longer. -/
theorem test_table_word :
    decodeTableWord 128 0x13000000003C00000000000000000000 = some (.pidSetSetpoint 0x3C0000) ∧
    decodeTableWord 64 0x13000000003C00000000000000000000 = none ∧
    decodeTableWord 136 0x13000000003C00000000000000000000 = none := by decide

/-- R87, R62: most significant byte first. -/
theorem test_serial_order :
    (serialOfWord 0x13000000003C00000000000000000000#128).take 6 = [0x13, 0, 0, 0, 0, 0x3C] ∧
    wordOfSerial (serialOfWord 0x13000000003C00000000000000000000#128)
      = some 0x13000000003C00000000000000000000#128 := by decide

/-! ### A step from reset runs the word placed at the command port -/

theorem test_fetch_getReg :
    after (step (State.reset.withFetchWord 128 0x01000000000000050000000000000000)) (·.rsp)
      = some (some { status := .ok, data := 0x00010000 }) := by decide

theorem test_fetch_illegal :
    after (step (State.reset.withFetchWord 128 0x00000000000000000000000000000000)) (fun t => (t.rsp, t.err))
      = some (some { status := .err .illegal, data := 0 }, 1) := by decide

/-! ### Instructions -/

/-- Section 4.1: `STATUS` and `OUT_MAX` after reset, and in configuration fault (section 4.3). -/
theorem test_getReg_values :
    after (exec (.getReg 0x11) State.reset) (·.rsp) = some (some { status := .ok, data := 0x00000008 }) ∧
    after (exec (.getReg 0x11) faulted) (·.rsp) = some (some { status := .ok, data := 0x00000009 }) := by decide

/-- Section 4.1: unmapped indices. -/
theorem test_getReg_unmapped :
    after (exec (.getReg 0x0A) State.reset) (fun t => (t.rsp, t.err)) = some (some { status := .err .arg, data := 0 }, 2) ∧
    after (exec (.getReg 0x28) State.reset) (·.err) = some 2 := by decide

/-- Rows GT3, GT4: the gate across the wrap of `TIME`. -/
theorem test_pidEval_gate :
    let s := fun t : Word => { sampled 1000 with
      time := t, ctl := { ControllerState.reset with output := 0x1234, lastTime := 0xFFFFFE0C } }
    after (exec .pidEval (s 0x1F3)) (fun t => (t.rsp, t.evalPending))
      = some (some { status := .okCached, data := 0x1234 }, false) ∧
    after (exec .pidEval (s 0x1F4)) (fun t => (t.rsp, t.evalPending, t.t0, t.qryReq))
      = some (none, true, 0x1F4, true) := by decide

/-- Row EV2: a completion. -/
theorem test_pidEval_completes :
    after (step (answering 0x14000 pending)) (fun t => (t.ctl.integral, t.ctl.output, t.ctl.lastInput, t.ctl.lastTime))
      = some (0xFFFFF667, 0x7667, 0x14000, 500) := by decide

/-- Row SG2: floor toward minus infinity. -/
theorem test_setGains_floors :
    after (exec (.pidSetGains 0x8000 0xFFFFFD70 0) (sampled 100)) (fun t => (t.ctl.kp, t.ctl.ki, t.ctl.kd))
      = some (0x8000, 0xFFFFFFBE, 0) := by decide

/-- Row SG9: one above the largest derivative gain that fits. -/
theorem test_setGains_range :
    after (exec (.pidSetGains 0 0 0x0CCCCCCD) (sampled 100)) (fun t => (t.rsp, t.err, t.ctl.kp))
      = some (some { status := .err .range, data := 0 }, 4, 0) := by decide

/-- Row LM1: a lowered ceiling pulls both down. -/
theorem test_setLimits_reclamps :
    after (exec (.pidSetLimits 0 0x8000)
      { State.reset with ctl := { ControllerState.reset with integral := 0xCB68, output := 0x10000 } })
      (fun t => (t.ctl.outMax, t.ctl.integral, t.ctl.output, t.rsp))
      = some (0x8000, 0x8000, 0x8000, some { status := .ok, data := 0x8000 }) := by decide

/-- Section 4.3: a negative setpoint; and the check of the mode comes first. -/
theorem test_setSetpoint_negative :
    after (exec (.pidSetSetpoint 0xFFFF0000) State.reset) (fun t => (t.rsp, t.err))
      = some (some { status := .err .arg, data := 0 }, 2) ∧
    after (exec (.pidSetSetpoint 0xFFFF0000) faulted) (fun t => (t.rsp, t.err))
      = some (some { status := .err .fault, data := 0 }, 8) := by decide

/-- Row SP11's case: the sum does not wrap to a negative. -/
theorem test_incSetpoint_exact :
    after (exec (.pidIncSetpoint 0x7FFFFFFF) { State.reset with ctl := { ControllerState.reset with setpoint := 0x7FFFFFFF } })
      (·.ctl.setpoint) = some 0x00640000 := by decide

/-- Row SP12's case: decrement by −2^31 clamps to `SP_MAX`. -/
theorem test_decSetpoint_least :
    after (exec (.pidDecSetpoint 0x80000000) State.reset) (·.ctl.setpoint) = some 0x00640000 ∧
    after (exec (.pidDecSetpoint 1) State.reset) (·.ctl.setpoint) = some 0 := by decide

/-- Rows HC1, HC2. -/
theorem test_htrStart_begins :
    after (exec .htrStart State.reset) (fun t => (t.htr.phase, t.htr.offMs, t.htr.tRem, statusWord t))
      = some (.offWait, 200, 200, 0x04) ∧
    after (exec .htrStart stopped) (fun t => (t.htr.phase, t.htr.onMs, t.htr.offMs, t.htr.tWr, statusWord t))
      = some (.onReq, 100, 100, 1000, 0x64) := by decide

/-- Row HC4. -/
theorem test_htrStart_busy :
    after (exec .htrStart (offWait 5)) (fun t => (t.rsp, t.err, t.htr.phase))
      = some (some { status := .err .busy, data := 0 }, 16, .offWait) := by decide

/-- Row HC6. -/
theorem test_htrStop_flag :
    after (exec .htrStop (onWait 20)) (fun t => (statusWord t, t.htr.phase, t.htr.tRem)) = some (0x3C, .onWait, 20) := by
  decide

/-! ### The other steps -/

/-- Rows TK1, TK2. -/
theorem test_tick_wait :
    after (step (ticking (onWait 2))) (fun t => (t.time, t.htr.tRem, t.htr.onTime)) = some (1099, 1, 1) ∧
    after (step (ticking (onWait 1))) (fun t => (t.htr.phase, t.htr.tWr, statusWord t)) = some (.offReq, 1099, 0x54) := by
  decide

/-- Row TK6: a stop found when the on-interval fills the period. -/
theorem test_tick_stop :
    let s := loop .onWait 1199 1 true true true false
    after (step (ticking { s with htr := { s.htr with onMs := 200, offMs := 0 } }))
      (fun t => (t.htr.phase, t.htr.onMs, t.htr.tWr, statusWord t)) = some (.finalReq, 200, 1200, 0x5C) := by decide

/-- Rows AK1, AK4. -/
theorem test_ack_latency :
    after (step (acking (onReq 1003))) (fun t => (t.htr.phase, t.htr.tRem, statusWord t)) = some (.onWait, 97, 0x34) ∧
    after (step (acking (onReq 1130))) (fun t => (t.htr.phase, t.htr.tRem, t.htr.tWr, statusWord t))
      = some (.offReq, 0, 1130, 0x54) := by decide

/-- Row AK12. -/
theorem test_ack_final :
    after (step (acking finalReq)) (fun t => (t.htr.phase, statusWord t)) = some (.stopped, 0x08) := by decide

/-- Row AK6: the four-call chain, full duty to zero duty. -/
theorem test_chain_of_four :
    let s := onReq 1200
    after (step (acking { s with ctl := ControllerState.reset, htr := { s.htr with onMs := 200, offMs := 0 } }))
      (fun t => (t.htr.phase, t.htr.onMs, t.htr.offMs, t.htr.tWr)) = some (.offReq, 0, 200, 1200) := by decide

/-- Section 3.1: the rows about the threshold, a budget above 2^31, a long period. -/
theorem test_quantize :
    quantizeOn Config.reference 0xCCC = 0 ∧ quantizeOn Config.reference 0xCCD = 20 ∧
    quantizeOn Config.reference 0x4000 = 50 ∧ quantizeOn Config.reference 0xF334 = 200 ∧
    quantizeOn { Config.reference with periodMs := 5 } 0x20000 = 5 ∧
    quantizeOn { Config.reference with periodMs := 0xFFFFFFFF } 0x8000 = 2147483650 := by decide

/-- R96, R97: the assembler's text and directives. -/
theorem test_assembler :
    asmText (.pidSetSetpoint 0x3C0000) = "pid.sp #0x003C0000" ∧ asmText (.getReg 0x11) = "get STATUS" ∧
    (directiveCycles (.tick 3)).length = 3 ∧
    fxLiteral (-1) 4 = some 0xFFFFC000 := by decide

/-! ### Witnesses: for each obligation with hypotheses, states and operands that meet them, clause by clause -/

theorem witness_IllegalWordRefused :
    legalWord 0x21000000000000000000000000000000#128 = true ∧
    legalWord 0x10000001000000000000000000000000#128 = false ∧ State.reset.evalPending = false ∧
    after (step (commanding 0x10000001000000000000000000000000#128 State.reset)) (·.err) = some 1 := by decide

theorem witness_UntakenFieldsIgnored :
    ((0x10000000DEADBEEF12345678FFFFFFFF#128).extractLsb' 96 32 = (0x10000000000000000000000000000000#128).extractLsb' 96 32 ∧
      ((0x10000000DEADBEEF12345678FFFFFFFF#128).extractLsb' 120 8).toNat ∈ [0x10, 0x20, 0x21]) ∧
    ((0x0100000000000010AAAAAAAA55555555#128).extractLsb' 96 32 = (0x01000000000000100000000000000000#128).extractLsb' 96 32 ∧
      ((0x0100000000000010AAAAAAAA55555555#128).extractLsb' 120 8).toNat ∈ [0x01, 0x13, 0x14, 0x15] ∧
      (0x0100000000000010AAAAAAAA55555555#128).extractLsb' 64 32 = (0x01000000000000100000000000000000#128).extractLsb' 64 32) ∧
    ((0x120000000000000100000002FFFFFFFF#128).extractLsb' 96 32 = (0x12000000000000010000000200000000#128).extractLsb' 96 32 ∧
      ((0x120000000000000100000002FFFFFFFF#128).extractLsb' 120 8).toNat = 0x12 ∧
      (0x120000000000000100000002FFFFFFFF#128).extractLsb' 32 64 = (0x12000000000000010000000200000000#128).extractLsb' 32 64) ∧
    decode 0x11000000000080000000800000020000#128 = some (.pidSetGains 0x8000 0x8000 0x20000) ∧
    ((0x11000000000080000000800000020000#128).extractLsb' 120 8).toNat = 0x11 := by decide

theorem witness_SerialCarriage : ([] : List Byte).length ≠ 16 ∧ (List.replicate 17 (0 : Byte)).length ≠ 16 := by decide

theorem witness_StepRunsPresentedCommand :
    State.reset.evalPending = false ∧ decode 0x20000000000000000000000000000000#128 = some .htrStart ∧
    after (step (commanding 0x20000000000000000000000000000000#128 State.reset)) (·.htr.phase) = some .offWait := by decide

theorem witness_CommandWaits :
    pending.evalPending = true ∧ Wires.idle.cmd = none ∧ cmdReady State.reset = true ∧
    nextEvent (commanding 0x20000000000000000000000000000000#128 pending) = none := by decide

theorem witness_SimultaneousEvents :
    let all : Wires := ⟨none, true, true, some 5, some 0x21000000000000000000000000000000#128⟩
    nextEvent { pending with wires := { all with reset := some Config.reference } } = some (.reset Config.reference) ∧
    nextEvent { pending with wires := all } = some .tick ∧
    nextEvent { pending with wires := { all with tick := false } } = some .relayAck ∧
    nextEvent { pending with wires := { all with tick := false, relayAck := false } } = some (.qryRsp 5) ∧
    nextEvent { State.reset with wires := { all with tick := false, relayAck := false, qryRsp := none } }
      = some (.cmd 0x21000000000000000000000000000000#128) := by decide

theorem witness_SilentBlock :
    State.reset.wires = Wires.idle ∧ State.reset.arrivals = [] ∧ pending.wires = Wires.idle ∧ pending.arrivals = [] := by
  decide

theorem witness_UnsolicitedAnswers :
    State.reset.evalPending = false ∧ State.reset.htr.relayReq = false ∧
    step (answering 5 State.reset) = .fault .qryRspNotEnabled ∧
    step (acking State.reset) = .fault .relayAckNotEnabled := ⟨rfl, rfl, rfl, rfl⟩

theorem witness_ResetStep :
    (resetting Config.reference (onReq 1003)).wires.reset = some Config.reference ∧
    after (step (resetting Config.reference (onReq 1003))) (·.htr.relayReq) = some false ∧
    after (step (resetting { Config.reference with sampleMs := 0 } pending)) (fun t => (t.cfgFault, t.evalPending))
      = some (true, false) := by decide

theorem witness_GetReg :
    (∀ r ∈ allRegs, regIndex r ≠ 0x0A) ∧ (∀ r ∈ allRegs, regIndex r ≠ 0x0F) ∧ (∀ r ∈ allRegs, regIndex r ≠ 0x16) ∧
    (∀ r ∈ allRegs, regIndex r ≠ 0x28) ∧ (∀ r ∈ allRegs, regIndex r ≠ 0xFFFFFFFF) ∧
    (∃ r ∈ allRegs, regIndex r = 0x27) := by decide

theorem witness_StatusWord :
    pending.evalPending = true ∧ (statusWord pending).getLsbD 1 = true ∧ (statusWord State.reset).getLsbD 3 = true ∧
    (statusWord State.reset).getLsbD 7 = false := by decide

/-- ErrChangesOnlyByRefusal, TimeCountsTicksOnly, ParametersFixedBetweenResets: a step outside reset that sets a bit, one that leaves `ERR` alone, and a `TICK` at the wrap of `TIME`. -/
theorem witness_ErrTimeParameters :
    (commanding 0#128 State.reset).wires.reset = none ∧
    after (step (commanding 0#128 State.reset)) (fun t => (t.err, t.cfg)) = some (1, Config.reference) ∧
    after (step (commanding 0x21000000000000000000000000000000#128 { State.reset with err := 3 })) (·.err) = some 3 ∧
    after (step (ticking { State.reset with time := 0xFFFFFFFF })) (fun t => (t.time, t.cfgFault)) = some (0, false) := by
  decide

/-- Rows GT1, GT2: both sides of the boundary. -/
theorem witness_PidEvalGate :
    (sampled 1000).cfgFault = false ∧
    after (exec .pidEval { sampled 1000 with time := 999 }) (·.evalPending) = some false ∧
    after (exec .pidEval { sampled 1000 with time := 1000 }) (·.evalPending) = some true := by decide

/-- QryRspCompletesEvaluation, EvaluationTracksRealLaw. -/
theorem witness_QryRsp :
    State.reset.evalPending = false ∧ pending.evalPending = true ∧
    pending.ctl.outMin.toInt ≤ pending.ctl.outMax.toInt ∧
    after (step (answering 0x14000 pending)) (·.evalPending) = some false := by decide

/-- Rows SG8 to SG11, SG14 to SG16: the largest and the smallest gains that fit, and one beyond each. -/
theorem witness_SetGains :
    (sampled 100).cfgFault = false ∧ (sampled 100).cfg.sampleMs ≠ 0 ∧ (sampled 2000).cfgFault = false ∧
    Int.fdiv ((0x0CCCCCCC#32).toInt * 1000) 100 ≤ 2 ^ 31 - 1 ∧ 2 ^ 31 - 1 < Int.fdiv ((0x0CCCCCCD#32).toInt * 1000) 100 ∧
    -2 ^ 31 ≤ Int.fdiv ((0xF3333334#32).toInt * 1000) 100 ∧ Int.fdiv ((0xF3333333#32).toInt * 1000) 100 < -2 ^ 31 ∧
    Int.fdiv ((0x3FFFFFFF#32).toInt * 2000) 1000 ≤ 2 ^ 31 - 1 ∧ 2 ^ 31 - 1 < Int.fdiv ((0x40000000#32).toInt * 2000) 1000 ∧
    -2 ^ 31 ≤ Int.fdiv ((0xC0000000#32).toInt * 2000) 1000 ∧ Int.fdiv ((0xBFFFFFFF#32).toInt * 2000) 1000 < -2 ^ 31 := by
  decide

/-- Row SG12. -/
theorem witness_SetGainsIdentity :
    (sampled 1000).cfgFault = false ∧ (sampled 1000).cfg.sampleMs = 1000 ∧
    after (exec (.pidSetGains 0x80000000 0x7FFFFFFF 0x80000000) (sampled 1000)) (fun t => (t.ctl.ki, t.ctl.kd))
      = some (0x7FFFFFFF, 0x80000000) := by decide

/-- Rows LM3, LM4: the boundary. -/
theorem witness_SetLimits :
    State.reset.cfgFault = false ∧ (0x5000#32).toInt < (0x5001#32).toInt ∧ (0x5000#32).toInt ≤ (0x5000#32).toInt ∧
    after (exec (.pidSetLimits 0x5000 0x5000) State.reset) (·.ctl.output) = some 0x5000 := by decide

/-- Rows SP1, SP4: the boundary. -/
theorem witness_SetSetpoint :
    State.reset.cfgFault = false ∧ (0xFFFFFFFF#32).toInt < 0 ∧ 0 ≤ (0#32).toInt ∧ 0 ≤ (0x7FFFFFFF#32).toInt := by decide

/-- IncSetpointClamps, DecSetpointClamps; rows SP12, SP13: the least delta; and the two commands mirror each other at the next one. -/
theorem witness_IncDecSetpoint :
    State.reset.cfgFault = false ∧ State.reset.cfg.valid = true ∧ (0x80000000#32).toInt = -2 ^ 31 ∧
    (0x80000001#32).toInt ≠ -2 ^ 31 ∧ 0 ≤ State.reset.ctl.setpoint.toInt ∧
    after (exec (.pidIncSetpoint 0x80000000) State.reset) (·.ctl.setpoint) = some 0 := by decide

theorem witness_ConfigFaultRefuses :
    faulted.cfgFault = true ∧ (∀ idx, Instr.htrStop ≠ .getReg idx) ∧
    after (exec .htrStop faulted) (·.rsp) = some (some { status := .err .fault, data := 0 }) :=
  ⟨by decide, (by intro idx h; cases h), by decide⟩

/-- RefusalIsPrecise: a step that answers with each code. -/
theorem witness_RefusalIsPrecise :
    after (step (commanding 0#128 State.reset)) (·.rsp) = some (some { status := .err .illegal, data := 0 }) ∧
    after (step (commanding 0x13000000FFFFFFFF0000000000000000#128 State.reset)) (·.rsp)
      = some (some { status := .err .arg, data := 0 }) ∧
    after (step (commanding 0x1100000000000000000000007FFFFFFF#128 State.reset)) (·.rsp)
      = some (some { status := .err .range, data := 0 }) ∧
    after (step (commanding 0x20000000000000000000000000000000#128 faulted)) (·.rsp)
      = some (some { status := .err .fault, data := 0 }) ∧
    after (step (commanding 0x20000000000000000000000000000000#128 finalReq)) (·.rsp)
      = some (some { status := .err .busy, data := 0 }) := by decide

/-- RefusalCauses: each refusal a command can raise, `E_FAULT`, `E_ARG` three ways, `E_RANGE`, `E_BUSY`. -/
theorem witness_RefusalCauses :
    State.reset.rsp = none ∧ faulted.rsp = none ∧
    after (exec .pidEval faulted) (·.rsp) = some (some { status := .err .fault, data := 0 }) ∧
    after (exec (.pidSetSetpoint 0x80000000) State.reset) (·.rsp) = some (some { status := .err .arg, data := 0 }) ∧
    after (exec (.pidSetLimits 1 0) State.reset) (·.rsp) = some (some { status := .err .arg, data := 0 }) ∧
    after (exec (.getReg 0x0A) faulted) (·.rsp) = some (some { status := .err .arg, data := 0 }) ∧
    after (exec (.pidSetGains 0 0 0x7FFFFFFF) State.reset) (·.rsp) = some (some { status := .err .range, data := 0 }) ∧
    after (exec .htrStart finalReq) (·.rsp) = some (some { status := .err .busy, data := 0 }) := by decide

theorem witness_OneResponse :
    State.reset.rsp = none ∧ State.reset.evalPending = false ∧
    after (exec .htrStop State.reset) (fun t => (t.rsp.isSome, t.evalPending)) = some (true, false) ∧
    after (exec .pidEval { State.reset with time := 100 }) (fun t => (t.rsp.isSome, t.evalPending)) = some (false, true) ∧
    after (step (answering 0 pending)) (·.rsp.isSome) = some true := by decide

/-- QuantizerRule; V4: the last duty below the threshold and the first that is not. -/
theorem witness_Quantizer :
    Config.reference.periodMs ≠ 0 ∧ Config.reference.halfCycleMs ≠ 0 ∧ Config.reference.valid = true ∧
    (0xCCC : Int) * 200 < 10 * 65536 ∧ (10 : Int) * 65536 ≤ 0xCCD * 200 ∧ State.reset.cfg = Config.reference ∧
    Config.reference.periodMs = 200 ∧ Config.reference.halfCycleMs = 10 := by decide

/-- QuantizerProperties (b) to (g): each condition, (c) with a duty below 1 that rounds up to the period (row 0xF334),
(d) with a period below a half-cycle. -/
theorem witness_QuantizerProperties :
    let short : Config := { Config.reference with periodMs := 5 }
    short.valid = true ∧ quantizeOn short 0x20000 ≠ 0 ∧ quantizeOn short 0x20000 < 10 ∧
    (10 : Int) ≤ 200 ∧ quantizeOn Config.reference 65536 = 200 ∧ quantizeOn Config.reference 0 = 0 ∧
    ((10 : Int) * 65536 ≤ 0xF334 * 200 ∧ (20 - 1 : Int) * (10 * 65536) < 0xF334 * 200 ∧ (200 : Int) ≤ 20 * 10) ∧
    quantizeOn Config.reference (-1) = 0 ∧ quantizeOn Config.reference 0xCCC ≤ quantizeOn Config.reference 0xCCD := by decide

theorem witness_Chain :
    State.reset.cfg.periodMs ≠ 0 ∧ State.reset.cfg.halfCycleMs ≠ 0 ∧
    (chain 4 .periodStart (offWait 0)).htr.phase = .onReq ∧ (chain 9 .periodStart (offWait 0)).htr.phase = .onReq ∧
    (chain 4 .offEntry (onWait 0)).htr.phase = .offReq := by decide

/-- The five outcomes of `period_start()`. -/
theorem witness_PeriodStart :
    let zero := fun s : State => { s with ctl := ControllerState.reset }
    (periodStart finalReq).htr.phase = .finalReq ∧ finalReq.htr.stopFlag = true ∧
    (periodStart (onWait 0)).htr.phase = .onWait ∧ (periodStart (offWait 0)).htr.phase = .onReq ∧
    (periodStart (zero (onWait 0))).htr.phase = .offReq ∧ (periodStart (zero (offWait 0))).htr.phase = .offWait ∧
    quantizeOn Config.reference (offWait 0).ctl.output.toInt ≠ 0 ∧
    quantizeOn Config.reference (zero (offWait 0)).ctl.output.toInt = 0 := by decide

theorem witness_OffEntry :
    let full := fun s : State => { s with htr := { s.htr with onMs := 200, offMs := 0 } }
    (full (onWait 0)).htr.offMs = 0 ∧ (offEntry (full (onWait 0))).htr.phase = .onWait ∧
    (offWait 0).htr.offMs ≠ 0 ∧ (offEntry (offWait 0)).htr.phase = .offWait ∧
    (offEntry (onWait 0)).htr.phase = .offReq := by decide

/-- Rows HC1, HC2, HC5. -/
theorem witness_HtrStart :
    State.reset.cfgFault = false ∧ finalReq.htr.phase ≠ .stopped ∧ stopped.htr.phase = .stopped ∧
    stopped.htr.relayState = false ∧ quantizeOn stopped.cfg stopped.ctl.output.toInt = 100 ∧
    quantizeOn State.reset.cfg State.reset.ctl.output.toInt = 0 ∧ State.reset.htr.relayState = false := by decide

theorem witness_HtrStop : (onWait 20).cfgFault = false ∧ after (exec .htrStop (onWait 20)) (·.htr.stopFlag) = some true := by
  decide

theorem witness_TickStep :
    ((onReq 1003).htr.phase ≠ .onWait ∧ (onReq 1003).htr.phase ≠ .offWait) ∧
    ((onWait 2).htr.phase = .onWait ∧ 2 ≤ (onWait 2).htr.tRem.toNat) ∧
    ((offWait 2).htr.phase = .offWait ∧ 2 ≤ (offWait 2).htr.tRem.toNat) ∧
    ((onWait 1).htr.phase = .onWait ∧ (onWait 1).htr.tRem = 1) ∧
    ((offWait 1).htr.phase = .offWait ∧ (offWait 1).htr.tRem = 1) := by decide

/-- Rows AK1 to AK12: latencies just below and at each budget. -/
theorem witness_RelayAck :
    State.reset.htr.relayReq = false ∧ (onReq 1099).htr.relayReq = true ∧
    after (step (acking (onReq 1099))) (fun t => (t.htr.phase, t.htr.tRem)) = some (.onWait, 1) ∧
    after (step (acking (onReq 1100))) (·.htr.phase) = some .offReq ∧
    after (step (acking (offReq 1099))) (fun t => (t.htr.phase, t.htr.tRem)) = some (.offWait, 1) ∧
    after (step (acking (offReq 1100))) (·.htr.phase) = some .onReq ∧
    finalReq.htr.phase = .finalReq ∧ finalReq.htr.relayReq = true := by decide

theorem witness_Wait :
    (onWait 1).htr.tRem.toNat = 0 + 1 ∧ (offWait 2).htr.tRem.toNat = 1 + 1 ∧
    (tickStep (tickStep (offWait 2))).htr.phase = .onReq ∧ (tickStep (onWait 1)).htr.phase = .offReq := by decide

/-- A period with no off-interval, waiting for its relay write. -/
def onlyOn (time : Word) : State := { onReq time with htr := { (onReq time).htr with offMs := 0 } }

theorem witness_ActuatorReadsOutput :
    (ControllerState.reset.output = State.reset.ctl.output) ∧
    ((onWait 1).htr.phase = .onWait ∧ (onWait 1).htr.tRem = 1 ∧ (onWait 1).htr.offMs ≠ 0) ∧
    ((offWait 2).htr.phase = .offWait ∧ (offWait 2).htr.tRem ≠ 1) ∧
    ((onReq 1100).htr.phase = .onReq ∧ (onReq 1100).htr.onMs.toNat ≤ ((onReq 1100).time - (onReq 1100).htr.tWr).toNat ∧
      (onReq 1100).htr.offMs ≠ 0) ∧
    ((onlyOn 1099).htr.phase = .onReq ∧ (onlyOn 1099).htr.offMs = 0 ∧
      ¬ (onlyOn 1099).htr.onMs.toNat ≤ ((onlyOn 1099).time - (onlyOn 1099).htr.tWr).toNat) ∧
    ((offReq 1099).time - (offReq 1099).htr.tWr).toNat < (offReq 1099).htr.offMs.toNat := by decide

/-! ### Witnesses: safe states -/

theorem safe_pending : Safe pending :=
  ⟨⟨by decide, by decide, by decide, by decide, by decide, by decide⟩, ⟨rfl, rfl, rfl, rfl⟩, .inr ⟨rfl, rfl, rfl⟩,
    by decide, by decide, by decide, rfl, by decide, by decide, by decide⟩

theorem safe_faulted : Safe faulted :=
  ⟨⟨by decide, by decide, by decide, by decide, by decide, by decide⟩, ⟨rfl, rfl, rfl, rfl⟩, .inr ⟨rfl, rfl, rfl⟩,
    by decide, by decide, by decide, rfl, by decide, by decide, by decide⟩

/-- Every `loop` state in a safe phase is safe, whatever the wires carry. -/
theorem safe_loop {phase : Phase} {time tRem : Word} {stopFlag relayState relayLevel relayReq : Bool}
    (h : PhaseSafe (loop phase time tRem stopFlag relayState relayLevel relayReq).htr) (w : Wires) :
    Safe { loop phase time tRem stopFlag relayState relayLevel relayReq with wires := w } :=
  ⟨⟨(by decide : (0#32).toInt ≤ (0x10000#32).toInt), (by decide : (0#32).toInt ≤ (0#32).toInt),
      (by decide : (0#32).toInt ≤ (0x10000#32).toInt), (by decide : (0#32).toInt ≤ (0x8000#32).toInt),
      (by decide : (0x8000#32).toInt ≤ (0x10000#32).toInt), (by decide : 0 ≤ (0#32).toInt)⟩,
    h, .inl ⟨rfl, .inr ⟨10, rfl⟩⟩, (by decide : false = !Config.reference.valid),
    (by intro e; cases e), (by intro e; cases e), rfl, (by intro e; cases e), (by intro e; cases e),
    (by decide : (0#32).toNat < 32)⟩

theorem safe_onReq (time : Word) (w : Wires) : Safe { onReq time with wires := w } :=
  safe_loop (show PhaseSafe (onReq time).htr from ⟨rfl, rfl, rfl, (by decide : 0 < (100#32).toNat)⟩) w

theorem safe_onWait_one (w : Wires) : Safe { onWait 1 with wires := w } :=
  safe_loop (show PhaseSafe (onWait 1).htr from ⟨rfl, rfl, rfl, (by decide : 0 < (1#32).toNat), (by decide : (1#32).toNat ≤ (100#32).toNat)⟩) w

theorem safe_offReq (time : Word) (w : Wires) : Safe { offReq time with wires := w } :=
  safe_loop (show PhaseSafe (offReq time).htr from ⟨rfl, rfl, rfl, (by decide : 0 < (100#32).toNat)⟩) w

theorem safe_offWait_one (w : Wires) : Safe { offWait 1 with wires := w } :=
  safe_loop (show PhaseSafe (offWait 1).htr from ⟨rfl, rfl, rfl, (by decide : 0 < (1#32).toNat), (by decide : (1#32).toNat ≤ (100#32).toNat)⟩) w

theorem safe_finalReq (w : Wires) : Safe { finalReq with wires := w } :=
  safe_loop (show PhaseSafe (finalReq).htr from ⟨rfl, rfl, rfl⟩) w

theorem safe_stopped (w : Wires) : Safe { stopped with wires := w } :=
  safe_loop (show PhaseSafe (stopped).htr from ⟨rfl, rfl, rfl, rfl⟩) w

/-- A safe state and its next state, for an `RELAY_ACK` and for a completion. -/
theorem witness_StepKeepsSafe :
    Safe (acking (onReq 1100)) ∧ (nextOf (step (acking (onReq 1100)))).isSome = true ∧
    Safe (answering 0x14000 pending) ∧ (nextOf (step (answering 0x14000 pending))).isSome = true :=
  ⟨safe_onReq 1100 _, by decide,
    ⟨safe_pending.1, safe_pending.2, safe_pending.3, safe_pending.4, safe_pending.5, safe_pending.6, safe_pending.7,
      safe_pending.8, safe_pending.9, safe_pending.10⟩, by decide⟩

/-- One of each disjunct: the phase before, the event, the phase after. -/
theorem witness_PhaseTransitions :
    (Safe (commanding 0x20000000000000000000000000000000#128 stopped) ∧
      after (step (commanding 0x20000000000000000000000000000000#128 stopped)) (·.htr.phase) = some .onReq) ∧
    (Safe (acking (onReq 1099)) ∧ after (step (acking (onReq 1099))) (·.htr.phase) = some .onWait) ∧
    (Safe (ticking (onWait 1)) ∧ after (step (ticking (onWait 1))) (·.htr.phase) = some .offReq) ∧
    (Safe (acking (offReq 1100)) ∧ after (step (acking (offReq 1100))) (·.htr.phase) = some .onReq) ∧
    (Safe (ticking (offWait 1)) ∧ after (step (ticking (offWait 1))) (·.htr.phase) = some .onReq) ∧
    (Safe (acking finalReq) ∧ after (step (acking finalReq)) (·.htr.phase) = some .stopped) :=
  ⟨⟨safe_stopped _, by decide⟩, ⟨safe_onReq _ _, by decide⟩, ⟨safe_onWait_one _, by decide⟩, ⟨safe_offReq _ _, by decide⟩,
    ⟨safe_offWait_one _, by decide⟩, ⟨safe_finalReq _, by decide⟩⟩

/-- The relay wire rises at a write's start, falls at one, and a forced-off write starts with the wire already 0. -/
theorem witness_RelayLevel :
    (Safe (ticking (offWait 1)) ∧ after (step (ticking (offWait 1))) (·.htr.relayLevel) = some true) ∧
    (Safe (ticking (onWait 1)) ∧ after (step (ticking (onWait 1))) (·.htr.relayLevel) = some false) ∧
    after (step (ticking (loop .offWait 1199 1 true false false false))) (fun t => (t.htr.phase, t.htr.relayReq))
      = some (.finalReq, true) :=
  ⟨⟨safe_offWait_one _, by decide⟩, ⟨safe_onWait_one _, by decide⟩, by decide⟩

/-- Other budgets in the same phase. -/
def withBudgets (on off : Word) (s : State) : State := { s with htr := { s.htr with onMs := on, offMs := off } }

theorem safe_withBudgets {s : State} (h : Safe s) {on off : Word} (hp : PhaseSafe (withBudgets on off s).htr)
    (hb : BudgetsSafe s.cfg (withBudgets on off s).htr) : Safe (withBudgets on off s) :=
  ⟨h.controller, hp, .inl hb, h.fault_is_check, h.fault_stopped, h.fault_no_query, h.query_wire, h.query_gate,
    h.query_silent, h.err_reserved⟩

/-- PeriodTakesExactlyPeriodMs: each way a period can have just started, the latencies at their bounds. -/
theorem witness_PeriodTakes :
    (Safe (onReq 1000) ∧ (onReq 1000).htr.phase = .onReq ∧ (onReq 1000).htr.tWr = (onReq 1000).time ∧
      (onReq 1000).htr.offMs ≠ 0 ∧ 100 ≤ (onReq 1000).htr.onMs.toNat ∧ 100 ≤ (onReq 1000).htr.offMs.toNat) ∧
    (Safe (withBudgets 200 0 (onReq 1000)) ∧ (withBudgets 200 0 (onReq 1000)).htr.offMs = 0) ∧
    (Safe (onWait 100) ∧ (onWait 100).htr.phase = .onWait ∧ (onWait 100).htr.tRem = (onWait 100).htr.onMs) ∧
    (Safe (withBudgets 200 0 (onWait 200)) ∧ (withBudgets 200 0 (onWait 200)).htr.tRem = 200) ∧
    (Safe (withBudgets 0 200 (offReq 1000)) ∧ (withBudgets 0 200 (offReq 1000)).htr.onMs = 0 ∧
      (offReq 1000).htr.tWr = (offReq 1000).time) ∧
    (Safe (withBudgets 0 200 (offWait 200)) ∧ (withBudgets 0 200 (offWait 200)).htr.tRem = 200) := by
  have waitOn : Safe (onWait 100) :=
    safe_loop (show PhaseSafe (onWait 100).htr from
      ⟨rfl, rfl, rfl, (by decide : 0 < (100#32).toNat), (by decide : (100#32).toNat ≤ (100#32).toNat)⟩) Wires.idle
  have waitOff : Safe (offWait 1) := safe_offWait_one Wires.idle
  refine ⟨⟨safe_onReq 1000 Wires.idle, by decide⟩, ⟨?_, by decide⟩, ⟨waitOn, by decide⟩, ⟨?_, by decide⟩, ⟨?_, by decide⟩,
    ⟨?_, by decide⟩⟩
  · exact safe_withBudgets (safe_onReq 1000 Wires.idle) ⟨rfl, rfl, rfl, (by decide : 0 < (200#32).toNat)⟩ ⟨rfl, .inl rfl⟩
  · exact ⟨waitOn.1, ⟨rfl, rfl, rfl, (by decide : 0 < (200#32).toNat), (by decide : (200#32).toNat ≤ (200#32).toNat)⟩,
      .inl ⟨rfl, .inl rfl⟩, waitOn.4, (fun e => by cases e), (fun e => by cases e), rfl, (fun e => by cases e),
      (fun e => by cases e), waitOn.10⟩
  · exact safe_withBudgets (safe_offReq 1000 Wires.idle) ⟨rfl, rfl, rfl, (by decide : 0 < (200#32).toNat)⟩
      ⟨rfl, .inr ⟨0, rfl⟩⟩
  · exact ⟨waitOff.1, ⟨rfl, rfl, rfl, (by decide : 0 < (200#32).toNat), (by decide : (200#32).toNat ≤ (200#32).toNat)⟩,
      .inl ⟨rfl, .inr ⟨0, rfl⟩⟩, waitOff.4, (fun e => by cases e), (fun e => by cases e), rfl, (fun e => by cases e),
      (fun e => by cases e), waitOff.10⟩

/-- Each clause of the writers' statement has a step that writes. -/
theorem witness_Writers :
    after (step (commanding 0x13000000000000010000000000000000#128 State.reset)) (·.ctl.setpoint) = some 1 ∧
    after (step (commanding 0x11000000000000010000000000000000#128 State.reset)) (·.ctl.kp) = some 1 ∧
    after (step (commanding 0x12000000000000010000000200000000#128 State.reset)) (fun t => (t.ctl.outMin, t.ctl.output))
      = some (1, 1) ∧
    after (step (answering 0x14000 pending)) (·.ctl.lastTime) = some 500 ∧
    after (step (ticking (onWait 2))) (·.htr.onTime) = some 1 ∧
    after (step (acking (onReq 1003))) (·.htr.relayState) = some true ∧
    after (step (acking (onReq 1003))) (·.htr.relayReq) = some false ∧
    after (step (ticking (onWait 1))) (·.htr.relayReq) = some true ∧
    after (step (answering 0x14000 pending)) (fun t => (t.evalPending, t.qryReq)) = some (false, false) ∧
    after (step (commanding 0x21000000000000000000000000000000#128 (onWait 2))) (·.htr.stopFlag) = some true ∧
    after (step (commanding 0x10000000000000000000000000000000#128 { State.reset with time := 100 })) (·.t0) = some 100 := by
  decide

theorem witness_CommandFrames :
    after (exec (.pidSetLimits 0 1) (onWait 2)) (·.htr) = some (onWait 2).htr ∧
    after (exec .htrStart stopped) (·.ctl) = some stopped.ctl ∧
    after (exec .htrStop pending) (·.t0) = some 500 := by decide

theorem witness_Stuck :
    (Safe (ticking (onReq 1003)) ∧ (ticking (onReq 1003)).htr.relayReq = true ∧
      nextEvent (ticking (onReq 1003)) = some .tick ∧ after (step (ticking (onReq 1003))) (·.htr.relayReq) = some true) ∧
    (Safe pending ∧ pending.evalPending = true ∧ nextEvent pending = none ∧
      after (step pending) (·.evalPending) = some true) :=
  ⟨⟨safe_onReq _ _, by decide⟩, ⟨safe_pending, by decide⟩⟩

theorem witness_ConfigFaultMode :
    Safe faulted ∧ faulted.cfgFault = true ∧ faulted.wires.reset = none ∧ (nextOf (step faulted)).isSome = true :=
  ⟨safe_faulted, by decide⟩

/-- The block after reset is cold and safe; an evaluation in flight keeps it so, and a `HTR_START` is one step of it. -/
theorem witness_UntunedBlock :
    Cold State.reset ∧ Safe State.reset ∧
    after (step (commanding 0x20000000000000000000000000000000#128 State.reset)) (fun t => (t.htr.relayLevel, t.ctl.output))
      = some (false, 0) ∧ decode 0x20000000000000000000000000000000#128 = some .htrStart :=
  ⟨⟨⟨rfl, rfl, rfl⟩, rfl, rfl, rfl, rfl, rfl⟩,
    ⟨⟨by decide, by decide, by decide, by decide, by decide, by decide⟩, ⟨rfl, rfl, rfl, rfl⟩, .inr ⟨rfl, rfl, rfl⟩,
      by decide, by decide, by decide, rfl, by decide, by decide, by decide⟩, by decide⟩

/-- FxLiteralFloors: the ends of the range, and one beyond each. -/
theorem witness_FxLiteral :
    (0 < 65536) ∧ fxLiteral 2147483647 65536 = some 0x7FFFFFFF ∧ fxLiteral (-32768) 1 = some 0x80000000 ∧
    fxLiteral 32768 1 = none ∧ fxLiteral (-2147483649) 65536 = none := by decide

end Sys2Proof.Tests
end

section
/-! PROOFS of the statements about scope (spec/00_scope.md): a command presented on the open port is run, and the
parameters are fixed between resets. -/

namespace Sys2Proof.Machine

/-! ### A word presented alone on the open port (R13, R86) -/

/-- The state with a word alone on the wires, once the word is taken. -/
theorem takeEvent_cmd_of_command (s : State) (w : CmdWord) :
    takeEvent (.cmd w) { s with wires := Wires.command w } = { s with wires := Wires.idle, rsp := none } := (rfl)

/-- With the port open, the word is the next event. -/
theorem nextEvent_of_command {s : State} (hp : s.evalPending = false) (w : CmdWord) :
    nextEvent { s with wires := Wires.command w } = some (.cmd w) := by
  have hready : cmdReady { s with wires := Wires.command w } = true := by
    simp [cmdReady, hp, Wires.command, Wires.idle]
  have hcmd : cmdEvent { s with wires := Wires.command w } = some (.cmd w) := by
    rw [cmdEvent, if_pos hready]; rfl
  exact hcmd

/-- With the port open, the step is the `CMD` step of the word, legal or not. -/
theorem step_of_command {s : State} (hp : s.evalPending = false) (w : CmdWord) :
    step { s with wires := Wires.command w } = cmdStep w { s with wires := Wires.idle, rsp := none } := by
  rw [step, nextEvent_of_command hp]
  exact congrArg (cmdStep w) (takeEvent_cmd_of_command s w)

/-- The `CMD` step of a legal word is the decoded command's meaning (R173). -/
theorem cmdStep_of_decode {w : CmdWord} {i : Instr} (h : decode w = some i) (s : State) : cmdStep w s = exec i s := by
  rw [cmdStep, h]

/-- Settles O8: the word is the next event, and its `CMD` step is the decoded command's meaning. -/
theorem stepRunsPresentedCommand : Obligations.StepRunsPresentedCommand := by
  intro s w i hp hw
  rw [step_of_command hp, cmdStep_of_decode hw]

/-! ### The parameters between resets (R7, R39) -/

/-- The frame of every step outside reset, collected from the frames of the events' rules. -/
theorem step_keeps_parameters {s t : State} (hr : s.wires.reset = none) (h : step s = .next t) :
    t.cfg = s.cfg ∧ t.cfgFault = s.cfgFault := by
  rcases step_cases h with ⟨cfg, _, hreset, _⟩ | ⟨_, _, _, rfl⟩ | ⟨_, _, _, _, rfl⟩ | ⟨v, _, _, _, _, rfl⟩ |
    ⟨w, _, _, _, _, hcmd⟩ | ⟨_, _, _, rfl⟩
  · simp [hr] at hreset
  · obtain ⟨htr, e, _⟩ := tickStep_frame (takeEvent .tick s)
    simp [e]
  · obtain ⟨htr, e, _⟩ := acknowledge_frame (takeEvent .relayAck s)
    simp [e]
  · simp
  · obtain ⟨_, hcfg, hfault, _⟩ := cmdStep_frame hcmd
    exact ⟨hcfg, hfault⟩
  · obtain ⟨wires, arrivals, e⟩ := nextCycle_frame s
    simp [e]

/-- Settles O20: the parameters and `CFG_FAULT` lie in the frame of every rule but the reset step. -/
theorem parametersFixedBetweenResets : Obligations.ParametersFixedBetweenResets :=
  fun _ _ => step_keeps_parameters

end Sys2Proof.Machine
end

section
/-! PROOFS of the statements about the state (spec/10_state.md): the codes and bits of the status registers, and which
events can change which register. -/

namespace Sys2Proof.Machine

/-! ### Bits of a word (R34, R37, R38) -/

/-- A one-bit field stands at its bit and nowhere else. -/
theorem getLsbD_flagAt {k : Nat} (hk : k < 32) (b : Bool) (n : Nat) :
    (flagAt k b).getLsbD n = (decide (n = k) && b) := by
  rw [flagAt, BitVec.getLsbD_shiftLeft, BitVec.getLsbD_setWidth, BitVec.getLsbD_ofBool]
  rcases Nat.lt_trichotomy n k with hlt | rfl | hgt
  · simp [hlt, hlt.ne]
  · simp [hk]
  · have hne : ¬ n - k = 0 := by omega
    simp [hgt.ne', hne]

/-- The bits of `STATUS`: each is the field that stands there (R37). -/
theorem getLsbD_statusWord (s : State) (n : Nat) :
    (statusWord s).getLsbD n =
      (decide (n = 0) && s.cfgFault || decide (n = 1) && s.evalPending || decide (n = 2) && s.htr.phase != .stopped ||
        decide (n = 3) && s.htr.stopFlag || decide (n = 4) && s.htr.relayState ||
        decide (n = 5) && s.htr.relayLevel || decide (n = 6) && s.htr.relayReq) := by
  simp [statusWord, getLsbD_flagAt]

/-- While an evaluation is in flight the command port offers no event (R86). -/
theorem cmdEvent_of_evalPending {s : State} (hp : s.evalPending = true) : cmdEvent s = none := by
  simp [cmdEvent, cmdReady, hp]

/-- Settles O15, from the bits of `STATUS` and the closed command port. -/
theorem statusWordLayout : Obligations.StatusWordLayout := by
  intro s
  have high : ∀ n, 7 ≤ n → (statusWord s).getLsbD n = false := by
    intro n hn
    have hlow : ∀ k < 7, n ≠ k := by omega
    simp [getLsbD_statusWord, hlow]
  refine ⟨?_, ?_, ?_, ?_, ?_, ?_, ?_, high, cmdEvent_of_evalPending⟩
  all_goals
    rw [getLsbD_statusWord]
    simp

/-- Settles O16, phase by phase. -/
theorem phaseCodes : Obligations.PhaseCodes :=
  ⟨rfl, rfl, rfl, rfl, rfl, rfl, fun p => by cases p <;> decide⟩

/-- Settles O18: each mask is a one-bit field set to 1. -/
theorem errBitOfEachRefusal : Obligations.ErrBitOfEachRefusal := by
  have single : ∀ k < 32, ∀ n, (flagAt k true).getLsbD n = decide (n = k) := fun k hk n => by
    rw [getLsbD_flagAt hk, Bool.and_true]
  exact ⟨single 0 (by decide), single 1 (by decide), single 2 (by decide), single 3 (by decide), single 4 (by decide)⟩

/-! ### What a command writes -/

/-- The writes of a command: the response and `ERR` alone when it is refused or only reads; else those of the one row
of R20, R30 and R40 that names it. -/
theorem exec_writes {i : Instr} {s t : State} (h : exec i s = .next t) :
    (∃ err rsp, t = { s with err := err, rsp := rsp }) ∨
    (i = .pidEval ∧ t = openQuery s) ∨
    (∃ p g d, i = .pidSetGains p g d ∧ ∃ ki kd,
      t = respond .ok 0 { s with ctl := { s.ctl with kp := p, ki := ki, kd := kd } }) ∨
    (∃ lo hi, i = .pidSetLimits lo hi ∧
      t = respond .ok (withLimits lo hi s.ctl).output { s with ctl := withLimits lo hi s.ctl }) ∨
    (((∃ v, i = .pidSetSetpoint v) ∨ (∃ v, i = .pidIncSetpoint v) ∨ ∃ v, i = .pidDecSetpoint v) ∧
      ∃ v, t = storeSetpoint v s) ∨
    (i = .htrStart ∧ ∃ htr, t = respond .ok 0 { s with htr := htr } ∧
      htr.relayState = s.htr.relayState ∧ htr.onTime = s.htr.onTime) ∨
    (i = .htrStop ∧ t = respond .ok 0 { s with htr := { s.htr with stopFlag := true } }) := by
  rcases exec_cases h with ⟨_, _, e⟩ | ⟨_, _, _, _, e⟩ | ⟨_, _, _, e⟩ | ⟨_, h⟩
  · exact .inl ⟨_, _, e⟩
  · exact .inl ⟨_, _, e⟩
  · exact .inl ⟨_, _, e⟩
  rcases h with ⟨_, _, e⟩ | ⟨hi, _, e⟩ | ⟨p, g, d, hi, _, _, e⟩ | ⟨_, _, _, _, _, e⟩ | ⟨_, _, _, _, e⟩ |
    ⟨lo, hi, hl, _, e⟩ | ⟨_, _, _, e⟩ | ⟨v, hi, _, e⟩ | ⟨d, hi, e⟩ | ⟨d, hi, e⟩ | ⟨hi, _, e⟩ | ⟨_, _, e⟩ | ⟨hi, e⟩
  · exact .inl ⟨_, _, e⟩
  · exact .inr (.inl ⟨hi, e⟩)
  · exact .inr (.inr (.inl ⟨p, g, d, hi, _, _, e⟩))
  · exact .inl ⟨_, _, e⟩
  · exact .inl ⟨_, _, e⟩
  · exact .inr (.inr (.inr (.inl ⟨lo, hi, hl, e⟩)))
  · exact .inl ⟨_, _, e⟩
  · exact .inr (.inr (.inr (.inr (.inl ⟨.inl ⟨v, hi⟩, _, e⟩))))
  · exact .inr (.inr (.inr (.inr (.inl ⟨.inr (.inl ⟨d, hi⟩), _, e⟩))))
  · exact .inr (.inr (.inr (.inr (.inl ⟨.inr (.inr ⟨d, hi⟩), _, e⟩))))
  · obtain ⟨htr, e', hrelay, _, htime⟩ :=
      chain_frame 4 .periodStart (respond .ok 0 { s with htr := { s.htr with stopFlag := false } })
    exact .inr (.inr (.inr (.inr (.inr (.inl ⟨hi, htr, e.trans e', hrelay, htime⟩)))))
  · exact .inl ⟨_, _, e⟩
  · exact .inr (.inr (.inr (.inr (.inr (.inr ⟨hi, e⟩)))))

/-- HeaterState is the business of `HTR_START` and `HTR_STOP` alone (R30). -/
theorem exec_keeps_htr {i : Instr} {s t : State} (h : exec i s = .next t) (hstart : i ≠ .htrStart)
    (hstop : i ≠ .htrStop) : t.htr = s.htr := by
  rcases exec_writes h with ⟨_, _, rfl⟩ | ⟨_, rfl⟩ | ⟨_, _, _, _, _, _, rfl⟩ | ⟨_, _, _, rfl⟩ | ⟨_, _, rfl⟩ |
    ⟨hi, _⟩ | ⟨hi, _⟩
  · rfl
  · rfl
  · rfl
  · rfl
  · rfl
  · exact absurd hi hstart
  · exact absurd hi hstop

/-- The two actuator commands, `PID_EVAL`'s first step and `GET_REG` leave ControllerState alone (R20, R28). -/
theorem exec_keeps_ctl {i : Instr} {s t : State} (h : exec i s = .next t)
    (hi : i = .htrStart ∨ i = .htrStop ∨ i = .pidEval ∨ ∃ idx, i = .getReg idx) : t.ctl = s.ctl := by
  rcases exec_writes h with ⟨_, _, rfl⟩ | ⟨_, rfl⟩ | ⟨_, _, _, rfl, _⟩ | ⟨_, _, rfl, _⟩ |
    ⟨⟨_, rfl⟩ | ⟨_, rfl⟩ | ⟨_, rfl⟩, _⟩ | ⟨_, _, rfl, _⟩ | ⟨_, rfl⟩
  · rfl
  · rfl
  · simp at hi
  · simp at hi
  · simp at hi
  · simp at hi
  · simp at hi
  · rfl
  · rfl

/-- Only `PID_EVAL` opens a query (R40, R105). -/
theorem exec_keeps_query {i : Instr} {s t : State} (h : exec i s = .next t) (heval : i ≠ .pidEval) :
    t.evalPending = s.evalPending ∧ t.t0 = s.t0 ∧ t.qryReq = s.qryReq := by
  rcases exec_writes h with ⟨_, _, rfl⟩ | ⟨hi, _⟩ | ⟨_, _, _, _, _, _, rfl⟩ | ⟨_, _, _, rfl⟩ | ⟨_, _, rfl⟩ |
    ⟨_, _, rfl, _⟩ | ⟨_, rfl⟩
  · exact ⟨rfl, rfl, rfl⟩
  · exact absurd hi heval
  all_goals exact ⟨rfl, rfl, rfl⟩

/-- Settles O50: the common frame of the commands, and the frame of each unit. -/
theorem commandFrames : Obligations.CommandFrames := by
  intro i s t h
  obtain ⟨htime, hcfg, hfault, hwires, harrivals, honTime, hrelay⟩ := exec_frame h
  exact ⟨htime, hcfg, hfault, hwires, harrivals, exec_keeps_htr h, exec_keeps_ctl h, exec_keeps_query h,
    honTime, hrelay⟩

/-! ### `TIME` (R36) -/

/-- `GET_REG` of a register's index answers its value (R160). -/
theorem exec_getReg_regIndex (r : Reg) (s : State) :
    exec (.getReg (regIndex r)) s = .next (respond .ok (readReg s r) s) := by
  rw [exec, execGetReg, regOfIndex_regIndex]

/-- `TIME` moves in a `TICK` step and in no other step outside reset. -/
theorem step_time {s t : State} (hr : s.wires.reset = none) (h : step s = .next t) :
    t.time = if s.wires.tick then s.time + 1 else s.time := by
  rcases step_cases h with ⟨cfg, _, hreset, _⟩ | ⟨_, htick, _, rfl⟩ | ⟨_, htick, _, _, rfl⟩ | ⟨v, _, htick, _, _, rfl⟩ |
    ⟨w, _, htick, _, _, hcmd⟩ | ⟨_, htick, _, rfl⟩
  · simp [hr] at hreset
  · obtain ⟨htr, e, _⟩ := tickStep_frame (takeEvent .tick s)
    simp [htick, e]
  · obtain ⟨htr, e, _⟩ := acknowledge_frame (takeEvent .relayAck s)
    simp [htick, e]
  · simp [htick]
  · obtain ⟨htime, _⟩ := cmdStep_frame hcmd
    simp [htick, htime]
  · obtain ⟨wires, arrivals, e⟩ := nextCycle_frame s
    simp [htick, e]

/-- Settles O19. -/
theorem timeCountsTicksOnly : Obligations.TimeCountsTicksOnly :=
  ⟨fun _ => rfl, fun _ _ => step_time, exec_getReg_regIndex .time⟩

/-! ### `ERR` (R38, R171) -/

/-- The two things a step can do about `ERR`: `t` leaves the flags `err` alone and its response is no refusal, or it
answers a refusal and sets that refusal's bit. -/
def ErrKeptOrRefused (err : Word) (t : State) : Prop :=
  (t.err = err ∧ ∀ c d, t.rsp ≠ some { status := .err c, data := d }) ∨
  (∃ c, t.err = err ||| errBit c ∧ t.rsp = some { status := .err c, data := 0 })

theorem errKeptOrRefused_refuse (c : ErrCode) (s : State) : ErrKeptOrRefused s.err (refuse c s) :=
  .inr ⟨c, rfl, rfl⟩

/-- A step without a response is no refusal. -/
theorem errKeptOrRefused_of_silent {err : Word} {t : State} (herr : t.err = err) (hrsp : t.rsp = none) :
    ErrKeptOrRefused err t :=
  .inl ⟨herr, by simp [hrsp]⟩

theorem cmdStep_err {w : CmdWord} {s t : State} (hs : s.rsp = none) (h : cmdStep w s = .next t) :
    ErrKeptOrRefused s.err t := by
  rcases cmdStep_cases h with ⟨i, _, hexec⟩ | ⟨_, rfl⟩
  · rcases exec_err hs hexec with hkept | ⟨c, rfl⟩
    · exact .inl hkept
    · exact errKeptOrRefused_refuse c s
  · exact errKeptOrRefused_refuse .illegal s

theorem step_err {s t : State} (hr : s.wires.reset = none) (h : step s = .next t) : ErrKeptOrRefused s.err t := by
  rcases step_cases h with ⟨cfg, _, hreset, _⟩ | ⟨_, _, _, rfl⟩ | ⟨_, _, _, _, rfl⟩ | ⟨v, _, _, _, _, rfl⟩ |
    ⟨w, _, _, _, _, hcmd⟩ | ⟨_, _, _, rfl⟩
  · simp [hr] at hreset
  · obtain ⟨htr, e, _⟩ := tickStep_frame (takeEvent .tick s)
    exact errKeptOrRefused_of_silent (by simp [e]) (by simp [e])
  · obtain ⟨htr, e, _⟩ := acknowledge_frame (takeEvent .relayAck s)
    exact errKeptOrRefused_of_silent (by simp [e]) (by simp [e])
  · exact .inl (by simp)
  · have herr := cmdStep_err (takeEvent_rsp _ s) hcmd
    rwa [takeEvent_err] at herr
  · obtain ⟨wires, arrivals, e⟩ := nextCycle_frame s
    exact errKeptOrRefused_of_silent (by simp [e]) (by simp [e])

/-- No bit is lost. -/
theorem ErrKeptOrRefused.sticky {err : Word} {t : State} (h : ErrKeptOrRefused err t) : err &&& t.err = err := by
  rcases h with ⟨e, _⟩ | ⟨c, e, _⟩
  · rw [e, BitVec.and_self]
  · ext n hn
    cases hbit : err[n] <;> simp [e, hbit]

/-- Settles O17: that `ERR` is sticky follows from what a step can do about it. -/
theorem errChangesOnlyByRefusal : Obligations.ErrChangesOnlyByRefusal :=
  fun _ _ hr h => ⟨(step_err hr h).sticky, step_err hr h⟩

/-! ### The writers of each register (R20, R30, R40) -/

/-- Settles O49: event by event, the registers outside the event's frame are equal, and for those inside it the event
is a listed one. -/
theorem writersOfEachRegister : Obligations.WritersOfEachRegister := by
  intro s t hr h cmdIs answered loopStep
  rcases step_cases h with ⟨cfg, _, hreset, _⟩ | ⟨_, _, hne, rfl⟩ | ⟨_, _, hne, _, rfl⟩ | ⟨v, _, _, hne, _, rfl⟩ |
    ⟨w, _, _, hne, _, hcmd⟩ | ⟨_, _, _, rfl⟩
  · simp [hr] at hreset
  · obtain ⟨htr, e, hrelay, hstop, _⟩ := tickStep_frame (takeEvent .tick s)
    have hloop : loopStep := .inl hne
    simp [e, hrelay, hstop, hne, hloop]
  · obtain ⟨htr, e, hstop, htime⟩ := acknowledge_frame (takeEvent .relayAck s)
    have hloop : loopStep := .inr (.inl hne)
    simp [e, hstop, htime, hne, hloop]
  · have hans : answered := ⟨v, hne⟩
    simp [hans, evaluated]
  · rcases cmdStep_cases hcmd with ⟨i, hdec, hexec⟩ | ⟨_, rfl⟩
    · have hcmdIs : ∀ {p : Instr → Prop}, p i → cmdIs p := fun hp => ⟨w, i, hne, hdec, hp⟩
      rcases exec_writes hexec with ⟨_, _, rfl⟩ | ⟨hi, rfl⟩ | ⟨p, g, d, hi, _, _, rfl⟩ | ⟨lo, hi, hl, rfl⟩ |
        ⟨hi, _, rfl⟩ | ⟨hi, htr, rfl, hrelay, htime⟩ | ⟨hi, rfl⟩
      · simp
      · have heval : cmdIs (· = .pidEval) := hcmdIs hi
        simp [heval]
      · have hgains : cmdIs fun i => ∃ p g d, i = .pidSetGains p g d := hcmdIs ⟨p, g, d, hi⟩
        simp [hgains]
      · have hlimits : cmdIs fun i => ∃ lo hi, i = .pidSetLimits lo hi := hcmdIs ⟨lo, hi, hl⟩
        simp [hlimits, withLimits]
      · have hsetpoint : cmdIs fun i =>
            (∃ v, i = .pidSetSetpoint v) ∨ (∃ v, i = .pidIncSetpoint v) ∨ ∃ v, i = .pidDecSetpoint v := hcmdIs hi
        simp [hsetpoint]
      · have hloop : loopStep := .inr (.inr (hcmdIs hi))
        have hflag : cmdIs fun i => i = .htrStart ∨ i = .htrStop := hcmdIs (.inl hi)
        simp [hrelay, htime, hloop, hflag]
      · have hflag : cmdIs fun i => i = .htrStart ∨ i = .htrStop := hcmdIs (.inr hi)
        simp [hflag]
    · simp
  · obtain ⟨wires, arrivals, e⟩ := nextCycle_frame s
    simp [e]

end Sys2Proof.Machine
end

section
/-! PROOFS of the statements about memory and sharing (spec/20_memory.md): what the PID unit and the actuator read of
each other. -/

namespace Sys2Proof.Machine

/-! ### What an evaluation reads of the actuator (R72) -/

/-- The completion of an evaluation neither reads nor writes `TIME` and HeaterState. -/
theorem completeEval_withTimeHtr (v time : Word) (htr : HeaterState) (s : State) :
    completeEval v { s with time := time, htr := htr } = { completeEval v s with time := time, htr := htr } := (rfl)

/-- Settles O24: the two events write `TIME` and HeaterState alone. -/
theorem interveningStepsDoNotChangeEvaluation : Obligations.InterveningStepsDoNotChangeEvaluation := by
  intro s v
  constructor
  · obtain ⟨htr, e, _⟩ := tickStep_frame s
    rw [e, completeEval_withTimeHtr]
    exact ⟨rfl, rfl⟩
  · obtain ⟨htr, e, _⟩ := acknowledge_frame s
    rw [e, completeEval_withTimeHtr v s.time]
    exact ⟨rfl, rfl⟩

/-! ### Operations that read no register of the PID unit -/

/-- The state with all registers of the PID unit replaced. -/
def withCtl (c : ControllerState) (s : State) : State := { s with ctl := c }

@[simp] theorem withCtl_htr (c : ControllerState) (s : State) : (withCtl c s).htr = s.htr := (rfl)

@[simp] theorem relayLatency_withCtl (c : ControllerState) (s : State) :
    relayLatency (withCtl c s) = relayLatency s := (rfl)

@[simp] theorem countTick_withCtl (c : ControllerState) (s : State) :
    countTick (withCtl c s) = withCtl c (countTick s) := (rfl)

@[simp] theorem countDown_withCtl (c : ControllerState) (s : State) :
    countDown (withCtl c s) = withCtl c (countDown s) := (rfl)

@[simp] theorem relayDone_withCtl (c : ControllerState) (level : Bool) (s : State) :
    relayDone level (withCtl c s) = withCtl c (relayDone level s) := (rfl)

@[simp] theorem setPhase_withCtl (c : ControllerState) (p : Phase) (s : State) :
    setPhase p (withCtl c s) = withCtl c (setPhase p s) := (rfl)

@[simp] theorem startWait_withCtl (c : ControllerState) (p : Phase) (ms : Word) (s : State) :
    startWait p ms (withCtl c s) = withCtl c (startWait p ms s) := (rfl)

@[simp] theorem requestOff_withCtl (c : ControllerState) (s : State) :
    requestOff (withCtl c s) = withCtl c (requestOff s) := (rfl)

@[simp] theorem beginOff_withCtl (c : ControllerState) (s : State) :
    beginOff (withCtl c s) = withCtl c (beginOff s) := by
  simp [beginOff, apply_ite (withCtl c)]

/-! ### What the actuator reads of ControllerState (R70) -/

/-- No wait is left once the latency has used up its budget (D12). -/
theorem monus_eq_zero_iff (a b : Word) : monus a b = 0 ↔ a.toNat ≤ b.toNat := by
  rw [← BitVec.toNat_inj, toNat_monus]
  exact Nat.sub_eq_zero_iff_le

/-- With an off-interval left, `off_entry` reaches no period start (R137). -/
theorem offEntry_of_offMs_ne_zero {s : State} (h : s.htr.offMs ≠ 0) : offEntry s = beginOff s :=
  if_neg h

/-- A period start reads `OUTPUT` and no other register of the PID unit. -/
theorem periodStart_withCtl {s : State} {c : ControllerState} (h : c.output = s.ctl.output) :
    periodStart (withCtl c s) = withCtl c (periodStart s) :=
  chain_ctl 4 .periodStart s h

/-- `off_entry` reads `OUTPUT` only when no off-interval is left before the next period. -/
theorem offEntry_withCtl {s : State} {c : ControllerState} (h : c.output = s.ctl.output ∨ s.htr.offMs ≠ 0) :
    offEntry (withCtl c s) = withCtl c (offEntry s) := by
  rcases h with hout | hoff
  · exact chain_ctl 4 .offEntry s hout
  · have hoff' : (withCtl c s).htr.offMs ≠ 0 := hoff
    rw [offEntry_of_offMs_ne_zero hoff, offEntry_of_offMs_ne_zero hoff', beginOff_withCtl]

/-- A `TICK` reads `OUTPUT` only where its wait ends in a period start. -/
theorem tickStep_withCtl {s : State} {c : ControllerState}
    (hon : s.htr.phase = .onWait → s.htr.tRem = 1 → c.output = s.ctl.output ∨ s.htr.offMs ≠ 0)
    (hoff : s.htr.phase = .offWait → s.htr.tRem = 1 → c.output = s.ctl.output) :
    tickStep (withCtl c s) = withCtl c (tickStep s) := by
  have hlast : (countDown (countTick s)).htr.tRem = 0 → s.htr.tRem = 1 := by
    intro h
    simp only [countDown_htr, countTick_htr] at h
    bv_omega
  cases hp : s.htr.phase with
  | onWait =>
    simp only [tickStep, countTick_withCtl, countDown_withCtl, withCtl_htr, countTick_htr, hp]
    split
    · next h => exact offEntry_withCtl (hon hp (hlast h))
    · rfl
  | offWait =>
    simp only [tickStep, countTick_withCtl, countDown_withCtl, withCtl_htr, countTick_htr, hp]
    split
    · next h => exact periodStart_withCtl (hoff hp (hlast h))
    · rfl
  | stopped | onReq | offReq | finalReq => simp [tickStep, hp]

/-- A `RELAY_ACK` reads `OUTPUT` only where it comes no earlier than its budget and ends in a period start. -/
theorem acknowledge_withCtl {s : State} {c : ControllerState}
    (hon : s.htr.phase = .onReq → s.htr.onMs.toNat ≤ (relayLatency s).toNat →
      c.output = s.ctl.output ∨ s.htr.offMs ≠ 0)
    (hoff : s.htr.phase = .offReq → s.htr.offMs.toNat ≤ (relayLatency s).toNat → c.output = s.ctl.output) :
    acknowledge (withCtl c s) = withCtl c (acknowledge s) := by
  cases hp : s.htr.phase with
  | onReq =>
    simp only [acknowledge, withCtl_htr, relayLatency_withCtl, relayDone_withCtl, startWait_withCtl, hp,
      monus_eq_zero_iff]
    split
    · next h => exact offEntry_withCtl (hon hp h)
    · rfl
  | offReq =>
    simp only [acknowledge, withCtl_htr, relayLatency_withCtl, relayDone_withCtl, startWait_withCtl, hp,
      monus_eq_zero_iff]
    split
    · next h => exact periodStart_withCtl (hoff hp h)
    · rfl
  | stopped | onWait | offWait | finalReq => simp [acknowledge, hp]

/-- Settles O48: the frames of the two steps, and their reads of ControllerState under each clause's premises. -/
theorem actuatorReadsOutputOnlyAtPeriodStart : Obligations.ActuatorReadsOutputOnlyAtPeriodStart := by
  intro s c
  refine ⟨⟨?_, ?_⟩, fun hout => ⟨?_, ?_⟩, fun hon hoff => ?_, fun hon hoff => ?_⟩
  · obtain ⟨htr, e, _⟩ := tickStep_frame s
    rw [e]
  · obtain ⟨htr, e, _⟩ := acknowledge_frame s
    rw [e]
  · exact tickStep_withCtl (fun _ _ => .inl hout) fun _ _ => hout
  · exact acknowledge_withCtl (fun _ _ => .inl hout) fun _ _ => hout
  · exact tickStep_withCtl (fun hp hlast => .inr (hon hp hlast)) fun hp hlast => absurd hlast (hoff hp)
  · exact acknowledge_withCtl (fun hp hlate => .inr (hon hp hlate))
      fun hp hlate => absurd (hoff hp) (Nat.not_lt.mpr hlate)

end Sys2Proof.Machine
end

section
/-! PROOFS of the statements about encoding (spec/30_encoding.md): the decoder against the legality check and the
encoder, the serial carriage of a word, the command port and its response, and the assembler's `fx` literals. -/

namespace Sys2Proof

/-! ### The opcode map (R83) -/

/-- The opcode map gives a command exactly for the nine defined opcodes, whatever the operand fields hold. -/
theorem isSome_decodeFields_iff (opc : BitVec 8) (a0 a1 a2 : Word) :
    (decodeFields opc a0 a1 a2).isSome = true ↔ opc.toNat ∈ definedOpcodes := by
  unfold decodeFields
  split_ifs <;> simp_all [definedOpcodes, BitVec.toNat_eq]

/-- With an opcode that takes no operand, the command is one whatever the fields hold, and its canonical encoding has
zero in all three (R85). -/
theorem decodeFields_of_noOperand {opc : BitVec 8} (h : opc.toNat ∈ [0x10, 0x20, 0x21]) :
    ∃ i, encode i = assembleFields opc 0 0 0 ∧ ∀ a0 a1 a2, decodeFields opc a0 a1 a2 = some i := by
  have hopc : opc = 0x10 ∨ opc = 0x20 ∨ opc = 0x21 := by simpa [BitVec.toNat_eq] using h
  rcases hopc with rfl | rfl | rfl
  all_goals exact ⟨_, rfl, fun _ _ _ => rfl⟩

/-- With an opcode that takes one operand, the command is given by `A0` alone, and its canonical encoding has zero in
`A1` and `A2` (R85). -/
theorem decodeFields_of_oneOperand {opc : BitVec 8} (h : opc.toNat ∈ [0x01, 0x13, 0x14, 0x15]) :
    ∃ f : Word → Instr, ∀ a0, encode (f a0) = assembleFields opc a0 0 0 ∧
      ∀ a1 a2, decodeFields opc a0 a1 a2 = some (f a0) := by
  have hopc : opc = 0x01 ∨ opc = 0x13 ∨ opc = 0x14 ∨ opc = 0x15 := by simpa [BitVec.toNat_eq] using h
  rcases hopc with rfl | rfl | rfl | rfl
  all_goals exact ⟨_, fun _ => ⟨rfl, fun _ _ => rfl⟩⟩

/-! ### The decoder (R81, R84) -/

/-- Adjacent fields are equal as a group only if each is. -/
theorem append_inj {m n : Nat} {a b : BitVec m} {c d : BitVec n} (h : a ++ c = b ++ d) : a = b ∧ c = d := by
  constructor
  · simpa only [BitVec.extractLsb'_append_eq_left] using congrArg (BitVec.extractLsb' n m) h
  · simpa only [BitVec.extractLsb'_append_eq_right] using congrArg (BitVec.extractLsb' 0 n) h

/-- Words that agree in `OPC` and `RSV` decode alike if the opcode map sends their operand fields to one command. -/
theorem decode_congr {w w' : CmdWord} (h : w.extractLsb' 96 32 = w'.extractLsb' 96 32)
    (hf : decodeFields (opcField w) (a0Field w) (a1Field w) (a2Field w) =
      decodeFields (opcField w) (a0Field w') (a1Field w') (a2Field w')) : decode w = decode w' := by
  rw [opc_rsv_bits, opc_rsv_bits] at h
  obtain ⟨hopc, hrsv⟩ := append_inj h
  rw [decode, decode, hf, hopc, hrsv]

/-- What a decoded word says: `RSV` is clear and the opcode map gives the command. -/
theorem decode_eq_some_iff {w : CmdWord} {i : Instr} : decode w = some i ↔
    rsvField w = 0 ∧ decodeFields (opcField w) (a0Field w) (a1Field w) (a2Field w) = some i := by
  simp [decode]

/-- A word is a command or it is illegal, the check of R84 being apart from the decoder. -/
theorem isSome_decode_iff (w : CmdWord) : (decode w).isSome = true ↔ legalWord w = true := by
  rw [legalWord_iff, ← isSome_decodeFields_iff _ (a0Field w) (a1Field w) (a2Field w), decode]
  split
  · next hr => simp [hr]
  · next hr => exact iff_of_false Bool.false_ne_true fun h => hr h.2

theorem decode_of_illegal {w : CmdWord} (h : legalWord w = false) : decode w = none := by
  rw [← Option.not_isSome_iff_eq_none, isSome_decode_iff, h]
  decide

/-! ### Canonical encodings (R85) -/

/-- The canonical encoding of a decoded word is assembled with the word's own opcode. -/
theorem encode_of_decode {w : CmdWord} {i : Instr} (h : decode w = some i) :
    ∃ a0 a1 a2, encode i = assembleFields (opcField w) a0 a1 a2 := by
  obtain ⟨_, hrow⟩ := decode_cases h
  rcases hrow with ⟨ho, rfl⟩ | ⟨ho, rfl⟩ | ⟨ho, rfl⟩ | ⟨ho, rfl⟩ | ⟨ho, rfl⟩ | ⟨ho, rfl⟩ | ⟨ho, rfl⟩ | ⟨ho, rfl⟩ |
    ⟨ho, rfl⟩
  all_goals
    rw [ho]
    exact ⟨_, _, _, rfl⟩

/-- The canonical encoding of a decoded word keeps its `OPC` and its `RSV`. -/
theorem opc_rsv_bits_of_encode {w : CmdWord} {i : Instr} (h : decode w = some i) :
    (encode i).extractLsb' 96 32 = w.extractLsb' 96 32 := by
  obtain ⟨hr, _⟩ := decode_cases h
  obtain ⟨a0, a1, a2, he⟩ := encode_of_decode h
  rw [he, opc_rsv_bits, opc_rsv_bits, opcField_assemble, rsvField_assemble, hr]

theorem encode_of_noOperand {w : CmdWord} {i : Instr} (h : decode w = some i)
    (hopc : (opcField w).toNat ∈ [0x10, 0x20, 0x21]) : encode i = assembleFields (opcField w) 0 0 0 := by
  obtain ⟨_, hi⟩ := decode_eq_some_iff.mp h
  obtain ⟨j, hj, hdec⟩ := decodeFields_of_noOperand hopc
  obtain rfl : j = i := Option.some.inj ((hdec _ _ _).symm.trans hi)
  exact hj

theorem encode_of_oneOperand {w : CmdWord} {i : Instr} (h : decode w = some i)
    (hopc : (opcField w).toNat ∈ [0x01, 0x13, 0x14, 0x15]) :
    encode i = assembleFields (opcField w) (a0Field w) 0 0 := by
  obtain ⟨_, hi⟩ := decode_eq_some_iff.mp h
  obtain ⟨f, hf⟩ := decodeFields_of_oneOperand hopc
  obtain ⟨he, hdec⟩ := hf (a0Field w)
  obtain rfl : f (a0Field w) = i := Option.some.inj ((hdec _ _).symm.trans hi)
  exact he

theorem encode_of_twoOperands {w : CmdWord} {i : Instr} (h : decode w = some i) (hopc : (opcField w).toNat = 0x12) :
    encode i = assembleFields (opcField w) (a0Field w) (a1Field w) 0 := by
  obtain ⟨_, hi⟩ := decode_eq_some_iff.mp h
  have hopc : opcField w = 0x12 := BitVec.eq_of_toNat_eq hopc
  rw [hopc] at hi ⊢
  obtain rfl : .pidSetLimits (a0Field w) (a1Field w) = i := Option.some.inj hi
  rfl

/-- No field is ignored, so that the word is its own canonical encoding. -/
theorem encode_of_threeOperands {w : CmdWord} {i : Instr} (h : decode w = some i) (hopc : (opcField w).toNat = 0x11) :
    encode i = w := by
  obtain ⟨hr, hi⟩ := decode_eq_some_iff.mp h
  have hopc : opcField w = 0x11 := BitVec.eq_of_toNat_eq hopc
  rw [hopc] at hi
  obtain rfl : .pidSetGains (a0Field w) (a1Field w) (a2Field w) = i := Option.some.inj hi
  rw [encode, ← hopc, assemble_fields hr]

/-! ### Serial carriage (R62, R87) -/

/-- The byte of a word that stands `j` bytes above the least significant one. -/
theorem ofNat_div_pow_eq_extractLsb' (w : CmdWord) (j : Nat) :
    BitVec.ofNat 8 (w.toNat / 256 ^ j) = w.extractLsb' (8 * j) 8 := by
  rw [BitVec.extractLsb', Nat.shiftRight_eq_div_pow, Nat.pow_mul]

theorem wordOfSerial_serialOfWord (w : CmdWord) : wordOfSerial (serialOfWord w) = some w := by
  have hlength : (serialOfWord w).length = 16 := serialBytes_length 16 w.toNat
  have hvalue : serialValue (serialOfWord w) = w.toNat :=
    (serialValue_serialBytes 16 w.toNat).trans (Nat.mod_eq_of_lt w.isLt)
  rw [wordOfSerial, if_pos hlength, hvalue, BitVec.ofNat_toNat, BitVec.setWidth_eq]

/-- Byte `k` on the link is bits `127 - 8k` to `120 - 8k` of the word. -/
theorem serialOfWord_getElem? (w : CmdWord) {k : Nat} (hk : k < 16) :
    (serialOfWord w)[k]? = some (w.extractLsb' (120 - 8 * k) 8) := by
  have hbit : 8 * (16 - 1 - k) = 120 - 8 * k := by omega
  rw [serialOfWord, serialBytes_getElem? 16 w.toNat k hk, ofNat_div_pow_eq_extractLsb', hbit]

end Sys2Proof

namespace Sys2Proof.Machine

/-! ### Command words -/

/-- Settles O1: an assembled word decodes by the opcode map, and the map has one row for each command. -/
theorem decodeEncodeRoundTrip : Obligations.DecodeEncodeRoundTrip := by
  intro i
  cases i
  all_goals exact decode_assemble _ _ _ _

/-- Settles O2. -/
theorem decoderAcceptsExactlyLegalWords : Obligations.DecoderAcceptsExactlyLegalWords :=
  fun w => Bool.eq_iff_iff.mpr (isSome_decode_iff w)

/-- The `CMD` step of an illegal word is the refusal with `E_ILLEGAL` (R84, R173). -/
theorem cmdStep_of_illegal {w : CmdWord} (h : legalWord w = false) (s : State) :
    cmdStep w s = .next (refuse .illegal s) := by
  rw [cmdStep, decode_of_illegal h]

/-- Settles O3: the fields that make a word legal, the decoder on legal words, and the `CMD` step of an illegal one. -/
theorem illegalWordRefused : Obligations.IllegalWordRefused := by
  refine ⟨legalWord_iff, fun w hw => ?_, by decide, by decide, rfl, fun w s hw hp => ?_⟩
  · exact Option.isSome_iff_exists.mp ((isSome_decode_iff w).mpr hw)
  · rw [step_of_command hp, cmdStep_of_illegal hw]
    rfl

/-- Settles O4: by the number of operands the opcode takes, the opcode map ignores the other fields and the encoder
writes them as zero. -/
theorem untakenFieldsIgnored : Obligations.UntakenFieldsIgnored := by
  constructor
  · intro w w' hw
    refine ⟨fun hopc => ?_, fun hopc ha0 => ?_, fun hopc ha => ?_⟩
    · obtain ⟨i, -, hi⟩ := decodeFields_of_noOperand hopc
      exact decode_congr hw (by rw [opcField, hi, hi])
    · obtain ⟨f, hf⟩ := decodeFields_of_oneOperand hopc
      have ha0 : a0Field w = a0Field w' := ha0
      exact decode_congr hw (by rw [opcField, (hf _).2, ha0, (hf _).2])
    · have hopc : opcField w = 0x12 := BitVec.eq_of_toNat_eq hopc
      rw [a0_a1_bits, a0_a1_bits] at ha
      obtain ⟨ha0, ha1⟩ := append_inj ha
      exact decode_congr hw (by rw [hopc, ha0, ha1]; rfl)
  · intro w i h
    refine ⟨opc_rsv_bits_of_encode h, fun hopc => ?_, fun hopc => ?_, fun hopc => ?_, fun hopc => ?_⟩
    · rw [encode_of_noOperand h hopc, a0_a1_a2_bits, a0Field_assemble, a1Field_assemble, a2Field_assemble]
      rfl
    · rw [encode_of_oneOperand h hopc, a1_a2_bits, a1Field_assemble, a2Field_assemble]
      exact ⟨a0Field_assemble _ _ _ _, rfl⟩
    · rw [encode_of_twoOperands h hopc, a0_a1_bits, a0_a1_bits, a0Field_assemble, a1Field_assemble]
      exact ⟨rfl, a2Field_assemble _ _ _ _⟩
    · exact encode_of_threeOperands h hopc

/-- Settles O5, by evaluation of the decoder on each word. -/
theorem specWordsDecode : Obligations.SpecWordsDecode := by
  unfold Obligations.SpecWordsDecode
  decide

/-- Settles O6. -/
theorem serialCarriageMostSignificantByteFirst : Obligations.SerialCarriageMostSignificantByteFirst :=
  ⟨fun w => ⟨wordOfSerial_serialOfWord w, serialBytes_length 16 w.toNat, fun _ => serialOfWord_getElem? w⟩,
    fun _ h => if_neg h⟩

/-! ### The command port and its responses (R86, R92, R93) -/

/-- Settles O7, status by status. -/
theorem responseStatusCodes : Obligations.ResponseStatusCodes := by
  refine ⟨rfl, rfl, rfl, rfl, rfl, rfl, rfl, fun c => ?_⟩
  cases c with
  | ok => simp [statusByte]
  | okCached => simp [statusByte]
  | err e => cases e <;> simp [statusByte]

theorem cmdReady_iff (s : State) : cmdReady s = true ↔ s.evalPending = false ∧ s.wires.reset = none := by
  simp [cmdReady]

/-- While an evaluation is pending, a word alone on the wires makes no event: the step ends the clock cycle. -/
theorem step_of_command_evalPending {s : State} (hp : s.evalPending = true) (w : CmdWord) (arrivals : List Wires) :
    step { s with wires := Wires.command w, arrivals := arrivals } =
      .next (nextCycle { s with wires := Wires.command w, arrivals := arrivals }) := by
  have hevent : nextEvent { s with wires := Wires.command w, arrivals := arrivals } = none :=
    cmdEvent_of_evalPending hp
  rw [step, hevent]

/-- Settles O9: the step with the port closed ends the clock cycle, and the next one keeps the word. -/
theorem commandWaitsWhilePortClosed : Obligations.CommandWaitsWhilePortClosed := by
  refine ⟨cmdReady_iff, fun s w hp => ⟨step_of_command_evalPending hp w [], fun c rest hc => ?_⟩⟩
  rw [step_of_command_evalPending hp]
  simp [nextCycle, hc, Wires.command]

/-- A command answers and leaves `EVAL_PENDING` alone, or it is the `PID_EVAL` that opens a query (R92, R105). -/
theorem exec_answers_or_opens {i : Instr} {s t : State} (h : exec i s = .next t) :
    (t.rsp.isSome = true ∧ t.evalPending = s.evalPending) ∨ (i = .pidEval ∧ t = openQuery s) := by
  rcases exec_cases h with ⟨_, _, rfl⟩ | ⟨_, _, _, _, rfl⟩ | ⟨_, _, _, rfl⟩ | ⟨_, hrow⟩
  · exact .inl ⟨rfl, rfl⟩
  · exact .inl ⟨rfl, rfl⟩
  · exact .inl ⟨rfl, rfl⟩
  rcases hrow with ⟨_, _, rfl⟩ | ⟨hi, _, rfl⟩ | ⟨_, _, _, _, _, _, rfl⟩ | ⟨_, _, _, _, _, rfl⟩ | ⟨_, _, _, _, rfl⟩ |
    ⟨_, _, _, _, rfl⟩ | ⟨_, _, _, rfl⟩ | ⟨_, _, _, rfl⟩ | ⟨_, _, rfl⟩ | ⟨_, _, rfl⟩ | ⟨_, _, rfl⟩ | ⟨_, _, rfl⟩ |
    ⟨_, rfl⟩
  -- The last write of a row is the response, but for the row that opens a query and the one that starts a period.
  any_goals exact .inl ⟨rfl, rfl⟩
  · exact .inr ⟨hi, rfl⟩
  · obtain ⟨htr, e⟩ := periodStart_htr (respond .ok 0 { s with htr := { s.htr with stopFlag := false } })
    rw [e]
    exact .inl ⟨rfl, rfl⟩

/-- Settles O34: the answers of the commands, and the silence of every other rule but the completion of a query. -/
theorem oneResponsePerCommand : Obligations.OneResponsePerCommand := by
  constructor
  · intro i s t hrsp hp h
    rcases exec_answers_or_opens h with ⟨hanswer, hquery⟩ | ⟨hi, rfl⟩
    · exact .inl ⟨hanswer, hquery.trans hp⟩
    · exact .inr ⟨hi, hrsp, rfl⟩
  · intro s t h hanswer
    rcases step_cases h with ⟨cfg, _, _, rfl⟩ | ⟨_, _, _, rfl⟩ | ⟨_, _, _, _, rfl⟩ | ⟨v, _, _, hevent, hp, _⟩ |
      ⟨w, _, _, hevent, _, _⟩ | ⟨_, _, _, rfl⟩
    · simp at hanswer
    · obtain ⟨htr, e, _⟩ := tickStep_frame (takeEvent .tick s)
      simp [e] at hanswer
    · obtain ⟨htr, e, _⟩ := acknowledge_frame (takeEvent .relayAck s)
      simp [e] at hanswer
    · exact .inr ⟨v, hevent, hp⟩
    · exact .inl ⟨w, hevent⟩
    · obtain ⟨wires, arrivals, e⟩ := nextCycle_frame s
      simp [e] at hanswer

/-! ### `fx` literals (R96) -/

/-- The literal is the raw value where that fits a register, and is rejected where it does not. -/
theorem fxLiteral_eq (num : Int) {den : Nat} (h : 0 < den) :
    fxLiteral num den =
      if fitsFx (Int.fdiv (num * 65536) den) then some (u32 (Int.fdiv (num * 65536) den)) else none := by
  rw [fxLiteral, floorDiv_eq_fdiv _ (Int.natCast_pos.mpr h)]

/-- Settles O56. -/
theorem fxLiteralFloors : Obligations.FxLiteralFloors := by
  intro num den hden raw
  rw [fxLiteral_eq num hden]
  refine ⟨fun hout => if_neg fun hfit => ?_, fun ⟨hlo, hhi⟩ => ⟨u32 raw, if_pos ?_, toInt_u32 hlo (by omega)⟩⟩
  · have hrange := (fitsFx_iff raw).mp hfit
    omega
  · exact (fitsFx_iff raw).mpr ⟨hlo, by omega⟩

end Sys2Proof.Machine
end

section
/-! PROOFS of the statements about the PID commands (spec/40_pid_commands.md): what each command and the completion of
an evaluation write, the distance of an evaluation from the law over the reals, and that every step keeps a safe state
safe. -/

namespace Sys2Proof.Machine

/-! ### The block is safe after reset (R200) -/

theorem controllerReset_safe : ControllerSafe ControllerState.reset := by
  constructor <;> decide

theorem afterReset_safe (cfg : Config) : Safe (State.afterReset cfg) where
  controller := controllerReset_safe
  phase := by simp [PhaseSafe, State.afterReset, HeaterState.reset]
  budgets := .inr ⟨rfl, rfl, rfl⟩
  fault_is_check := rfl
  fault_stopped _ := rfl
  fault_no_query _ := rfl
  query_wire := rfl
  query_gate h := nomatch h
  query_silent _ := rfl
  err_reserved := show (0 : Word).toNat < 32 by decide

/-- Settles O53: the reset values meet every clause, and the parameters stand only in the check of R8. -/
theorem safeAfterReset : Obligations.SafeAfterReset :=
  ⟨afterReset_safe Config.reference, afterReset_safe⟩

/-! ### Every step keeps a safe state safe (R113, R176) -/

/-- Safety says nothing of the inputs, and of the response port only that it may be empty. -/
theorem Safe.withPorts {s : State} (h : Safe s) (w : Wires) (a : List Wires) :
    Safe { s with rsp := none, wires := w, arrivals := a } :=
  { h with query_silent := fun _ => rfl }

/-- A block that is not in configuration fault mode has passed the check of R8. -/
theorem Safe.valid_of_operational {s : State} (h : Safe s) (hf : s.cfgFault = false) : s.cfg.valid = true := by
  simpa [hf] using h.fault_is_check

theorem nextCycle_safe {s : State} (h : Safe s) : Safe (nextCycle s) := by
  obtain ⟨w, a, e⟩ := nextCycle_frame s
  rw [e]
  exact h.withPorts w a

/-- The completion of an evaluation closes the query, so that of it only R113 is left to keep (R106). -/
theorem completeEval_safe {s : State} (h : Safe s) (v : Word) : Safe (completeEval v s) :=
  { h with
    controller := evaluated_safe h.controller v s.t0
    fault_no_query := fun _ => rfl
    query_wire := rfl
    query_gate := fun hp => nomatch hp
    query_silent := fun hp => nomatch hp }

/-- A query opened past the gate, with no response standing, keeps a state safe (R105). -/
theorem openQuery_safe {s : State} (h : Safe s) (hf : s.cfgFault = false) (hrsp : s.rsp = none)
    (hgate : s.cfg.sampleMs.toNat ≤ (elapsed s).toNat) : Safe (openQuery s) :=
  { h with
    fault_no_query := fun hc => Bool.noConfusion (hf.symm.trans hc)
    query_wire := rfl
    query_gate := fun _ => hgate
    query_silent := fun _ => hrsp }

/-- A setpoint that is not negative may be stored, no query being open. -/
theorem storeSetpoint_safe {s : State} (h : Safe s) (hp : s.evalPending = false) {v : Word} (hv : 0 ≤ v.toInt) :
    Safe (storeSetpoint v s) :=
  respond_safe (ctl_safe h hp (setpoint_safe h.controller hv)) hp .ok v

theorem storeClampedSetpoint_safe {s : State} (h : Safe s) (hp : s.evalPending = false) (hf : s.cfgFault = false)
    (v : Int) : Safe (storeClampedSetpoint v s) :=
  storeSetpoint_safe h hp (clampedSetpoint (h.valid_of_operational hf) v).2

/-- Raising the stop flag keeps every phase: where a phase speaks of the flag, it says that it is set (R134). -/
theorem PhaseSafe.withStopFlag {h : HeaterState} (hp : PhaseSafe h) : PhaseSafe { h with stopFlag := true } := by
  unfold PhaseSafe at hp ⊢
  cases hh : h.phase <;> simp_all

theorem htrStop_safe {s : State} (h : Safe s) : Safe { s with htr := { s.htr with stopFlag := true } } where
  __ := h
  phase := h.phase.withStopFlag
  budgets := h.budgets.imp_left fun hb => ⟨hb.sum_is_period, hb.on_quantized⟩

/-- The first period starts from a stopped loop, whose relay is at rest (R133, R142). -/
theorem htrStart_safe {s : State} (h : Safe s) (hp : s.evalPending = false) (hf : s.cfgFault = false)
    (hstop : s.htr.phase = .stopped) :
    Safe (periodStart (respond .ok 0 { s with htr := { s.htr with stopFlag := false } })) := by
  obtain ⟨_, hperiod, hhalf, _, _⟩ := (valid_iff _).mp (h.valid_of_operational hf)
  have hphase := h.phase
  rw [PhaseSafe, hstop] at hphase
  obtain ⟨_, hrelay, hlevel, hreq⟩ := hphase
  obtain ⟨hphase', hbudgets'⟩ :=
    periodStart_safe (respond .ok 0 { s with htr := { s.htr with stopFlag := false } }) hperiod hhalf
      (hlevel.trans hrelay.symm) hreq (fun hflag => nomatch hflag)
  obtain ⟨htr, e⟩ := periodStart_htr (respond .ok 0 { s with htr := { s.htr with stopFlag := false } })
  exact (respond_safe h hp .ok 0).withHeater hf hphase' hbudgets' ⟨s.time, htr, e⟩

/-- Every command keeps a safe state safe, the port being open and no response standing. -/
theorem exec_safe {i : Instr} {s t : State} (h : Safe s) (hp : s.evalPending = false) (hrsp : s.rsp = none)
    (hexec : exec i s = .next t) : Safe t := by
  rcases exec_cases hexec with ⟨_, _, rfl⟩ | ⟨_, _, _, _, rfl⟩ | ⟨_, _, _, rfl⟩ | ⟨hf, hrow⟩
  · exact refuse_safe h hp _
  · exact respond_safe h hp _ _
  · exact refuse_safe h hp _
  rcases hrow with ⟨_, _, rfl⟩ | ⟨_, hgate, rfl⟩ | ⟨p, g, d, _, _, _, rfl⟩ | ⟨_, _, _, _, _, rfl⟩ |
    ⟨_, _, _, _, rfl⟩ | ⟨_, _, _, hl, rfl⟩ | ⟨_, _, _, rfl⟩ | ⟨_, _, hv, rfl⟩ | ⟨_, _, rfl⟩ | ⟨_, _, rfl⟩ |
    ⟨_, hstop, rfl⟩ | ⟨_, _, rfl⟩ | ⟨_, rfl⟩
  · exact respond_safe h hp _ _
  · exact openQuery_safe h hf hrsp hgate
  · have hgains := gains_safe h.controller p (u32 (scaledKi s.cfg g)) (u32 (scaledKd s.cfg d))
    exact respond_safe (ctl_safe h hp hgains) hp _ _
  · exact refuse_safe h hp _
  · exact refuse_safe h hp _
  · exact respond_safe (ctl_safe h hp (withLimits_safe h.controller hl)) hp _ _
  · exact refuse_safe h hp _
  · exact storeSetpoint_safe h hp hv
  · exact storeClampedSetpoint_safe h hp hf _
  · exact storeClampedSetpoint_safe h hp hf _
  · exact htrStart_safe h hp hf hstop
  · exact refuse_safe h hp _
  · exact respond_safe (htrStop_safe h) hp _ _

theorem cmdStep_safe {w : CmdWord} {s t : State} (h : Safe s) (hp : s.evalPending = false) (hrsp : s.rsp = none)
    (hcmd : cmdStep w s = .next t) : Safe t := by
  rcases cmdStep_cases hcmd with ⟨i, _, hexec⟩ | ⟨_, rfl⟩
  · exact exec_safe h hp hrsp hexec
  · exact refuse_safe h hp _

/-- Settles O54: event by event, the rule of the event keeps the state that has taken it safe. -/
theorem stepKeepsSafe : Obligations.StepKeepsSafe := by
  intro s t h hstep
  rcases step_cases hstep with ⟨cfg, _, _, rfl⟩ | ⟨_, _, _, rfl⟩ | ⟨_, _, _, hreq, rfl⟩ | ⟨v, _, _, _, _, rfl⟩ |
    ⟨w, _, _, _, hp, hcmd⟩ | ⟨_, _, _, rfl⟩
  · exact (afterReset_safe cfg).withPorts Wires.idle s.arrivals
  · exact tickStep_safe (takeEvent_safe h .tick)
  · exact acknowledge_safe (takeEvent_safe h .relayAck) hreq
  · exact completeEval_safe (takeEvent_safe h (.qryRsp v)) v
  · exact cmdStep_safe (takeEvent_safe h (.cmd w)) hp rfl hcmd
  · exact nextCycle_safe h

/-! ### `PID_EVAL`, its gate and its completion (R105, R106) -/

/-- Settles O21: the two sides of the gate, on the elapsed time modulo 2^32. -/
theorem pidEvalGate : Obligations.PidEvalGate := by
  intro s hf elapsedMs
  have helapsed : (elapsed s).toNat = elapsedMs := toNat_elapsed s.time s.ctl.lastTime
  rw [exec, execPidEval, unlessCfgFault_operational hf, helapsed]
  refine ⟨fun hlt => ?_, fun hle => ?_⟩
  · rw [if_pos hlt]
    rfl
  · rw [if_neg (Nat.not_lt.mpr hle)]
    rfl

/-- With an answer alone on the wires, the step completes the evaluation that is pending. -/
theorem step_of_answer_pending {s : State} (hp : s.evalPending = true) (v : Word) :
    step { s with wires := { Wires.idle with qryRsp := some v } } =
      .next (completeEval v { s with wires := Wires.idle, rsp := none }) :=
  if_pos hp

/-- With no evaluation pending, an answer alone on the wires is no step (R180). -/
theorem step_of_answer_not_pending {s : State} (hp : s.evalPending = false) (v : Word) :
    step { s with wires := { Wires.idle with qryRsp := some v } } = .fault .qryRspNotEnabled :=
  if_neg (ne_true_of_eq_false hp)

/-- Settles O22: the stored results are the clamped formulas exactly, as R102 (d) has it. -/
theorem qryRspCompletesEvaluation : Obligations.QryRspCompletesEvaluation := by
  intro s v go
  refine ⟨fun hp t hgo => ?_, fun hp hl => ?_⟩
  · exact nomatch (step_of_answer_not_pending hp v).symm.trans hgo
  · refine ⟨u32 (newIntegral s.ctl v.toInt), u32 (newOutput s.ctl v.toInt), ?_, ?_, ?_⟩
    · rw [toInt_newIntegral hl, newIntegral, clamp_eq _ hl, floorDiv_eq_fdiv _ (by decide)]
    · rw [toInt_newIntegral hl, toInt_newOutput hl, newOutput, clamp_eq _ hl, floorDiv_eq_fdiv _ (by decide), evalAcc]
    · exact step_of_answer_pending hp v

/-! ### The law over the reals (R104) -/

/-- The value of a raw integer of kind `fx` (R10). -/
def fxValue (n : Int) : ℚ := n / 65536

/-- `floor_div` by 2^16 rounds down by less than one unit in the last place. -/
theorem fxValue_floorDiv (a : Int) :
    fxValue (floorDiv a fxOne) ≤ fxValue a / 65536 ∧
      fxValue a / 65536 < fxValue (floorDiv a fxOne) + 1 / 65536 := by
  obtain ⟨hle, hlt⟩ := floorDiv_spec a (b := fxOne) (by decide)
  have hle : (floorDiv a fxOne : ℚ) * 65536 ≤ a := by exact_mod_cast hle
  have hlt : (a : ℚ) < (floorDiv a fxOne + 1) * 65536 := by exact_mod_cast hlt
  unfold fxValue
  constructor <;> linarith

/-- The clamp is carried over to the values. -/
theorem fxValue_clamp {lo hi : Int} (h : lo ≤ hi) (n : Int) :
    fxValue (clamp n lo hi) = max (fxValue lo) (min (fxValue hi) (fxValue n)) := by
  have hpos : (0 : ℚ) ≤ 65536 := by norm_num
  rw [clamp_eq n h, fxValue, fxValue, fxValue, fxValue, min_div_div_right hpos, max_div_div_right hpos]
  push_cast
  rfl

/-- A clamp spreads no distance: what lies below by less than `e` before it does so after it. -/
theorem clamp_below {lo hi x y e : ℚ} (he : 0 < e) (hle : x ≤ y) (hlt : y < x + e) :
    max lo (min hi y) - e < max lo (min hi x) ∧ max lo (min hi x) ≤ max lo (min hi y) := by
  constructor
  · have hshift : max lo (min hi y) < max (lo + e) (min (hi + e) (x + e)) :=
      max_lt_max (lt_add_of_pos_right lo he) (min_lt_min (lt_add_of_pos_right hi he) hlt)
    rw [min_add_add_right, max_add_add_right] at hshift
    exact sub_lt_iff_lt_add.mpr hshift
  · exact max_le_max_left lo (min_le_min_left hi hle)

/-- A clamped result stored after one rounding: `n` is rounded down from the exact value `y`. -/
theorem fxValue_clamp_tracks {lo hi : Int} (h : lo ≤ hi) {n : Int} {y : ℚ} (hle : fxValue n ≤ y)
    (hlt : y < fxValue n + 1 / 65536) :
    max (fxValue lo) (min (fxValue hi) y) - 1 / 65536 < fxValue (clamp n lo hi) ∧
      fxValue (clamp n lo hi) ≤ max (fxValue lo) (min (fxValue hi) y) := by
  rw [fxValue_clamp h]
  exact clamp_below (by norm_num) hle hlt

/-- The first inequality of R104. -/
theorem newIntegral_tracks {c : ControllerState} (h : c.outMin.toInt ≤ c.outMax.toInt) (inp : Int) :
    let iStar := max (fxValue c.outMin.toInt) (min (fxValue c.outMax.toInt)
      (fxValue c.integral.toInt + fxValue c.ki.toInt * (fxValue c.setpoint.toInt - fxValue inp)))
    iStar - 1 / 65536 < fxValue (newIntegral c inp) ∧ fxValue (newIntegral c inp) ≤ iStar := by
  obtain ⟨hle, hlt⟩ := fxValue_floorDiv (c.ki.toInt * (c.setpoint.toInt - inp))
  refine fxValue_clamp_tracks h ?_ ?_
  all_goals
    simp only [fxValue] at hle hlt ⊢
    push_cast at hle hlt ⊢
    linarith

/-- The second inequality of R104, on the integral just stored. -/
theorem newOutput_tracks {c : ControllerState} (h : c.outMin.toInt ≤ c.outMax.toInt) (inp : Int) :
    let oStar := max (fxValue c.outMin.toInt) (min (fxValue c.outMax.toInt)
      (fxValue c.kp.toInt * (fxValue c.setpoint.toInt - fxValue inp) + fxValue (newIntegral c inp)
        - fxValue c.kd.toInt * (fxValue inp - fxValue c.lastInput.toInt)))
    oStar - 1 / 65536 < fxValue (newOutput c inp) ∧ fxValue (newOutput c inp) ≤ oStar := by
  obtain ⟨hle, hlt⟩ := fxValue_floorDiv (evalAcc c inp)
  refine fxValue_clamp_tracks h ?_ ?_
  all_goals
    simp only [fxValue, evalAcc] at hle hlt ⊢
    push_cast at hle hlt ⊢
    linarith

/-- Settles O23: each stored result is one clamp of one rounding, on the exact value of the law. -/
theorem evaluationTracksRealLaw : Obligations.EvaluationTracksRealLaw := by
  intro s t v hp hl hstep
  rw [step_of_answer_pending hp] at hstep
  obtain rfl := Host.Outcome.next.inj hstep
  have hintegral := newIntegral_tracks hl v.toInt
  have houtput := newOutput_tracks hl v.toInt
  rw [← toInt_newIntegral hl] at hintegral houtput
  rw [← toInt_newOutput hl] at houtput
  exact ⟨hintegral, houtput⟩

/-! ### `PID_SET_GAINS` (R108) -/

/-- The command outside configuration fault mode. -/
theorem exec_pidSetGains {s : State} (hf : s.cfgFault = false) (gainP gainI gainD : Word) :
    exec (.pidSetGains gainP gainI gainD) s = .next
      (if fitsFx (scaledKi s.cfg gainI) && fitsFx (scaledKd s.cfg gainD) then
        respond .ok 0 { s with ctl :=
          { s.ctl with kp := gainP, ki := u32 (scaledKi s.cfg gainI), kd := u32 (scaledKd s.cfg gainD) } }
      else refuse .range s) := by
  rw [exec, execPidSetGains, unlessCfgFault_operational hf]

/-- Settles O25: the two scaled gains as flooring divisions, and the test that both fit a register. -/
theorem setGainsScalesOrRefuses : Obligations.SetGainsScalesOrRefuses := by
  intro s gainP gainI gainD hf hsample ki kd
  have hki : scaledKi s.cfg gainI = ki := floorDiv_eq_fdiv _ (by decide)
  have hkd : scaledKd s.cfg gainD = kd := floorDiv_eq_fdiv _ (Int.natCast_pos.mpr (toNat_pos_of_ne hsample))
  have hfits : (fitsFx ki && fitsFx kd) = true ↔ -2 ^ 31 ≤ ki ∧ ki ≤ 2 ^ 31 - 1 ∧ -2 ^ 31 ≤ kd ∧ kd ≤ 2 ^ 31 - 1 := by
    rw [Bool.and_eq_true, fitsFx_iff, fitsFx_iff]
    omega
  rw [exec_pidSetGains hf, hki, hkd]
  refine ⟨fun hout => ?_, fun hin => ?_⟩
  · rw [if_neg fun h => by have hin := hfits.mp h; omega]
    rfl
  · rw [if_pos (hfits.mpr hin)]
    obtain ⟨hkiLo, hkiHi, hkdLo, hkdHi⟩ := hin
    exact ⟨u32 ki, u32 kd, toInt_u32 hkiLo (by omega), toInt_u32 hkdLo (by omega), rfl⟩

theorem fitsFx_toInt (w : Word) : fitsFx w.toInt = true :=
  (fitsFx_iff _).mpr ⟨toInt_ge w, toInt_le w⟩

/-- Settles O26: one second is the unit of both scalings, and the gains as given fit their registers. -/
theorem setGainsIdentityAtOneSecond : Obligations.SetGainsIdentityAtOneSecond := by
  intro s gainP gainI gainD hf hsample
  have hki : scaledKi s.cfg gainI = gainI.toInt := by
    rw [scaledKi, hsample]
    exact Int.mul_ediv_cancel _ (by decide)
  have hkd : scaledKd s.cfg gainD = gainD.toInt := by
    rw [scaledKd, hsample]
    exact Int.mul_ediv_cancel _ (by decide)
  rw [exec_pidSetGains hf, hki, hkd, fitsFx_toInt, fitsFx_toInt, u32_toInt, u32_toInt]
  rfl

/-! ### `PID_SET_LIMITS` (R109) -/

/-- Settles O27: the re-clamped registers lie in the new bounds, so that they are stored exactly. -/
theorem setLimitsReclamps : Obligations.SetLimitsReclamps := by
  intro s lo hi hf
  rw [exec, execPidSetLimits, unlessCfgFault_operational hf]
  refine ⟨fun hlt => ?_, fun hle => ⟨(withLimits lo hi s.ctl).integral, (withLimits lo hi s.ctl).output, ?_, ?_, ?_⟩⟩
  · rw [if_pos hlt]
    rfl
  · rw [withLimits, toInt_u32_clamp _ hle, clamp_eq _ hle]
  · rw [withLimits, toInt_u32_clamp _ hle, clamp_eq _ hle]
  · rw [if_neg (Int.not_lt.mpr hle)]
    rfl

/-! ### The setpoint commands (R110 to R112) -/

/-- Settles O28. -/
theorem setSetpointUnlessNegative : Obligations.SetSetpointUnlessNegative := by
  intro s value hf
  rw [exec, execPidSetSetpoint, unlessCfgFault_operational hf]
  refine ⟨fun hneg => ?_, fun hnonneg => ?_⟩
  · rw [if_pos hneg]
    rfl
  · rw [if_neg (Int.not_lt.mpr hnonneg)]
    rfl

/-- The increment outside configuration fault mode. -/
theorem exec_pidIncSetpoint {s : State} (hf : s.cfgFault = false) (delta : Word) :
    exec (.pidIncSetpoint delta) s = .next (storeClampedSetpoint (s.ctl.setpoint.toInt + delta.toInt) s) := by
  rw [exec, execPidIncSetpoint, unlessCfgFault_operational hf]

/-- The decrement outside configuration fault mode. -/
theorem exec_pidDecSetpoint {s : State} (hf : s.cfgFault = false) (delta : Word) :
    exec (.pidDecSetpoint delta) s = .next (storeClampedSetpoint (s.ctl.setpoint.toInt - delta.toInt) s) := by
  rw [exec, execPidDecSetpoint, unlessCfgFault_operational hf]

/-- Settles O29: the clamped sum is stored exactly, and a negated delta gives the decrement's difference. -/
theorem incSetpointClamps : Obligations.IncSetpointClamps := by
  intro s delta hf hvalid
  obtain ⟨hexact, hnonneg⟩ := clampedSetpoint hvalid (s.ctl.setpoint.toInt + delta.toInt)
  refine ⟨⟨_, hexact, hnonneg, exec_pidIncSetpoint hf delta⟩, fun hdelta => ?_⟩
  have hneg : (-delta).toInt = -delta.toInt := BitVec.toInt_neg_of_ne_intMin (fun h => hdelta (by rw [h]; decide))
  rw [exec_pidIncSetpoint hf, exec_pidDecSetpoint hf, hneg, ← sub_eq_add_neg]

/-- A value at or past `SP_MAX` is clamped to it. -/
theorem clampedSetpoint_eq_spMax {cfg : Config} (h : cfg.valid = true) {v : Int} (hv : cfg.spMax.toInt ≤ v) :
    u32 (clamp v cfg.spMin.toInt cfg.spMax.toInt) = cfg.spMax := by
  obtain ⟨_, _, _, _, hl⟩ := (valid_iff cfg).mp h
  rw [clamp_eq v hl, min_eq_left hv, max_eq_right hl, u32_toInt]

/-- Settles O30: the clamped difference is stored exactly; with the least delta it is at least 2^31, past every
`SP_MAX`. -/
theorem decSetpointClamps : Obligations.DecSetpointClamps := by
  intro s delta hf hvalid
  obtain ⟨hexact, hnonneg⟩ := clampedSetpoint hvalid (s.ctl.setpoint.toInt - delta.toInt)
  refine ⟨_, hexact, hnonneg, fun hdelta hsetpoint => clampedSetpoint_eq_spMax hvalid ?_, exec_pidDecSetpoint hf delta⟩
  have hmax := toInt_le s.cfg.spMax
  omega

end Sys2Proof.Machine
end

section
/-! PROOFS of the statements about the heater actuator (spec/41_heater_actuator.md): the quantizer, what the chained
procedures and the two commands leave, the `TICK` and `RELAY_ACK` steps, the length of a wait and of a period, and the
transitions of `PHASE` and of the relay wire. -/

namespace Sys2Proof.Machine

/-! ### The quantizer (R131, R132) -/

theorem halfCycle_pos {c : Config} (hh : c.halfCycleMs ≠ 0) : (0 : Int) < c.halfCycleMs.toNat :=
  Int.natCast_pos.mpr (toNat_pos_of_ne hh)

/-- Settles O35: the ceiling of R11 in the second branch, and budgets that fit their registers. -/
theorem quantizerRule : Obligations.QuantizerRule := by
  intro c d _ hh period half
  have hden : 0 < half * 65536 := mul_pos (halfCycle_pos hh) (by decide)
  refine ⟨quantizeOn_below, fun hle => ?_, ?_⟩
  · obtain ⟨hceil, hleast⟩ := ceilDiv_spec (d * period) hden
    exact ⟨_, hceil, hleast, quantizeOn_above (not_lt.mpr hle)⟩
  · rintro s rfl
    exact budgets_exact s.cfg d hh

/-- A duty that needs `k` half-cycles, and `k` half-cycles fill the period: the relay stays on (R132 (c)). -/
theorem quantizeOn_eq_period {c : Config} {d k : Int} (hh : c.halfCycleMs ≠ 0)
    (habove : (c.halfCycleMs.toNat : Int) * 65536 ≤ d * c.periodMs.toNat)
    (hneeded : (k - 1) * (c.halfCycleMs.toNat * 65536) < d * c.periodMs.toNat)
    (hfill : (c.periodMs.toNat : Int) ≤ k * c.halfCycleMs.toNat) : quantizeOn c d = c.periodMs.toNat := by
  have hhalf := halfCycle_pos hh
  have hden : (0 : Int) < c.halfCycleMs.toNat * 65536 := mul_pos hhalf (by decide)
  obtain ⟨hceil, _⟩ := ceilDiv_spec (d * c.periodMs.toNat) hden
  have hk : k - 1 < ceilDiv (d * c.periodMs.toNat) (c.halfCycleMs.toNat * 65536) :=
    lt_of_mul_lt_mul_right (hneeded.trans_le hceil) hden.le
  rw [quantizeOn_above (not_lt.mpr habove)]
  exact min_eq_left (hfill.trans (mul_le_mul_of_nonneg_right (Int.le_of_sub_one_lt hk) hhalf.le))

/-- With a duty of 1.0 or more, a period of at least one half-cycle is on from end to end (R132 (c)). -/
theorem quantizeOn_of_full_duty {c : Config} {d : Int} (hh : c.halfCycleMs ≠ 0)
    (hle : (c.halfCycleMs.toNat : Int) ≤ c.periodMs.toNat) (hd : 65536 ≤ d) : quantizeOn c d = c.periodMs.toNat := by
  obtain ⟨hfill, hleast⟩ := ceilDiv_spec c.periodMs.toNat (halfCycle_pos hh)
  have hduty : (65536 : Int) * c.periodMs.toNat ≤ d * c.periodMs.toNat :=
    mul_le_mul_of_nonneg_right hd (Int.natCast_nonneg _)
  refine quantizeOn_eq_period hh (by omega) ?_ hfill
  rw [← mul_assoc]
  omega

/-- A non-zero on-interval is the whole period or a positive multiple of the half-cycle (R132 (d)). -/
theorem quantizeOn_trichotomy (c : Config) (d : Int) (hh : c.halfCycleMs ≠ 0) :
    quantizeOn c d = 0 ∨ quantizeOn c d = c.periodMs.toNat ∨
      ((c.halfCycleMs.toNat : Int) ∣ quantizeOn c d ∧ c.halfCycleMs.toNat ≤ quantizeOn c d) := by
  rcases (quantizeOn_range c d hh).1.eq_or_lt with hzero | hpos
  · exact .inl hzero.symm
  · exact .inr ((quantizeOn_multiple c d).imp_right fun hdvd => ⟨hdvd, Int.le_of_dvd hpos hdvd⟩)

theorem ceilDiv_mono {a a' b : Int} (hb : 0 < b) (h : a ≤ a') : ceilDiv a b ≤ ceilDiv a' b :=
  Int.neg_le_neg (Int.ediv_le_ediv hb (Int.neg_le_neg h))

/-- `quantize` is monotone in the duty (R132 (e)). -/
theorem quantizeOn_mono {c : Config} {d d' : Int} (hh : c.halfCycleMs ≠ 0) (h : d ≤ d') :
    quantizeOn c d ≤ quantizeOn c d' := by
  have hhalf := halfCycle_pos hh
  have hnum : d * (c.periodMs.toNat : Int) ≤ d' * c.periodMs.toNat :=
    mul_le_mul_of_nonneg_right h (Int.natCast_nonneg _)
  by_cases hbelow : d * c.periodMs.toNat < c.halfCycleMs.toNat * 65536
  · rw [quantizeOn_below hbelow]
    exact (quantizeOn_range c d' hh).1
  · rw [quantizeOn_above hbelow, quantizeOn_above (by omega)]
    exact min_le_min_left _ (mul_le_mul_of_nonneg_right (ceilDiv_mono (by omega) hnum) hhalf.le)

/-- The off-interval is a multiple of the half-cycle for every duty exactly when the period is (R132 (f)). -/
theorem halfCycle_dvd_off_iff {c : Config} (hh : c.halfCycleMs ≠ 0) :
    (∀ d : Int, (c.halfCycleMs.toNat : Int) ∣ c.periodMs.toNat - quantizeOn c d) ↔
      (c.halfCycleMs.toNat : Int) ∣ c.periodMs.toNat := by
  refine ⟨fun hall => ?_, fun hdvd d => ?_⟩
  · simpa [quantizeOn_nonpos hh le_rfl] using hall 0
  · rcases quantizeOn_multiple c d with hfull | hmul
    · simp [hfull]
    · exact dvd_sub hdvd hmul

/-- With a period of 200 ms and a half-cycle of 10 ms, the least duty that is not below one half-cycle already needs
two (R132 (g)). -/
theorem quantizeOn_least_interval {c : Config} {d : Int} (hp : c.periodMs = 200) (hh : c.halfCycleMs = 10) :
    (d ≤ 3276 → quantizeOn c d = 0) ∧ (3277 ≤ d → 20 ≤ quantizeOn c d) ∧ (d = 3277 → quantizeOn c d = 20) := by
  have hon : quantizeOn c d = if d * 200 < 655360 then 0 else min 200 (ceilDiv (d * 200) 655360 * 10) := by
    simp [quantizeOn, hp, hh, fxOne]
  rw [hon, ceilDiv]
  refine ⟨fun h => ?_, fun h => ?_, ?_⟩
  · rw [if_pos (by omega)]
  · rw [if_neg (by omega)]
    omega
  · rintro rfl
    decide

/-- Settles O36: (a) to (g), each by its lemma. -/
theorem quantizerProperties : Obligations.QuantizerProperties := by
  refine ⟨?_, ?_, ?_⟩
  · intro c d hvalid on period half
    obtain ⟨_, _, hh, _, _⟩ := (valid_iff c).mp hvalid
    have htri := quantizeOn_trichotomy c d hh
    refine ⟨?_, fun h => h.elim (quantizeOn_nonpos hh) quantizeOn_below, quantizeOn_of_full_duty hh,
      fun _ => quantizeOn_eq_period hh, htri, fun hne hlt => ?_, fun _ => quantizeOn_mono hh⟩
    · rintro s rfl
      exact (setBudgets_safe s d hh).sum_is_period
    · have hfull : on = period := (htri.resolve_left hne).resolve_right fun ⟨_, hle⟩ => absurd hle (not_le.mpr hlt)
      rwa [← hfull]
  · intro c hvalid
    obtain ⟨_, _, hh, _, _⟩ := (valid_iff c).mp hvalid
    exact halfCycle_dvd_off_iff hh
  · intro c d hp hh
    obtain ⟨hzero, hleast, hexact⟩ := quantizeOn_least_interval (d := d) hp hh
    have hgap : quantizeOn c d = 0 ∨ 20 ≤ quantizeOn c d := by
      rcases le_or_gt d 3276 with hd | hd
      · exact .inl (hzero hd)
      · exact .inr (hleast hd)
    exact ⟨by omega, hgap, hzero, hexact⟩

/-! ### The chained procedures (R135 to R137, R140) -/

/-- One call of `off_entry`. -/
theorem chain_offEntry (n : Nat) (s : State) :
    chain (n + 1) .offEntry s = if s.htr.offMs = 0 then chain n .periodStart s else beginOff s := (rfl)

/-- Settles O37: a period start ends in three calls however many are allowed, and `off_entry` makes one before it. -/
theorem chainedProceduresEndInFourCalls : Obligations.ChainedProceduresEndInFourCalls := by
  intro s n hp hh hn
  obtain ⟨m, rfl⟩ := Nat.exists_eq_add_of_le' hn
  have hmore : ∀ k, chain (k + 3) .periodStart s = chain 3 .periodStart s := fun k => by
    rw [chain_periodStart k s hp hh, chain_periodStart 0 s hp hh]
  refine ⟨(hmore (m + 1)).trans (hmore 1).symm, ?_⟩
  rw [offEntry, chain_offEntry (m + 3), chain_offEntry 3, hmore]

/-- The rounded on-budget is stored as 0 only when it is 0. -/
theorem setBudgets_onMs_eq_zero_iff (s : State) (d : Int) (hh : s.cfg.halfCycleMs ≠ 0) :
    (setBudgets d s).htr.onMs = 0 ↔ quantizeOn s.cfg d = 0 := by
  obtain ⟨hon, _⟩ := budgets_exact s.cfg d hh
  rw [← hon, setBudgets_htr, ← BitVec.toNat_inj]
  exact Int.natCast_eq_zero.symm

theorem beginOn_of_relay_on {s : State} (h : s.htr.relayState = true) :
    beginOn s = startWait .onWait s.htr.onMs s := if_pos h

theorem beginOn_of_relay_off {s : State} (h : s.htr.relayState = false) : beginOn s = requestOn s :=
  if_neg (ne_true_of_eq_false h)

theorem beginOff_of_relay_on {s : State} (h : s.htr.relayState = true) : beginOff s = requestOff s := if_pos h

theorem beginOff_of_relay_off {s : State} (h : s.htr.relayState = false) :
    beginOff s = startWait .offWait s.htr.offMs s := if_neg (ne_true_of_eq_false h)

/-- A period start with the stop flag set (R135). -/
theorem periodStart_of_stopFlag {s : State} (h : s.htr.stopFlag = true) : periodStart s = requestFinalOff s :=
  if_pos h

/-- A period start with an on-interval to come (R135, R136). -/
theorem periodStart_of_on {s : State} (hp : s.cfg.periodMs ≠ 0) (hh : s.cfg.halfCycleMs ≠ 0)
    (hstop : s.htr.stopFlag = false) (hon : quantizeOn s.cfg s.ctl.output.toInt ≠ 0) :
    periodStart s = beginOn (setBudgets s.ctl.output.toInt s) := by
  rw [periodStart_eq s hp hh, if_neg (ne_true_of_eq_false hstop), if_neg]
  rwa [setBudgets_onMs_eq_zero_iff s _ hh]

/-- A period start with no on-interval (R135, R136). -/
theorem periodStart_of_off {s : State} (hp : s.cfg.periodMs ≠ 0) (hh : s.cfg.halfCycleMs ≠ 0)
    (hstop : s.htr.stopFlag = false) (hon : quantizeOn s.cfg s.ctl.output.toInt = 0) :
    periodStart s = beginOff (setBudgets s.ctl.output.toInt s) := by
  rw [periodStart_eq s hp hh, if_neg (ne_true_of_eq_false hstop), if_pos]
  rwa [setBudgets_onMs_eq_zero_iff s _ hh]

/-- Settles O38: the branches of `period_start` and of the interval it begins. -/
theorem periodStartOutcome : Obligations.PeriodStartOutcome := by
  intro s hp hh on
  obtain ⟨hon, hoff⟩ := budgets_exact s.cfg s.ctl.output.toInt hh
  refine ⟨_, _, hon, hoff, periodStart_of_stopFlag, fun hstop hne hrelay => ?_, fun hstop hne hrelay => ?_,
    fun hstop hz hrelay => ?_, fun hstop hz hrelay => ?_⟩
  · exact (periodStart_of_on hp hh hstop hne).trans (beginOn_of_relay_on hrelay)
  · exact (periodStart_of_on hp hh hstop hne).trans (beginOn_of_relay_off hrelay)
  · exact (periodStart_of_off hp hh hstop hz).trans (beginOff_of_relay_on hrelay)
  · exact (periodStart_of_off hp hh hstop hz).trans (beginOff_of_relay_off hrelay)

/-- A skipped off-interval (R137). -/
theorem offEntry_of_offMs_eq_zero {s : State} (hp : s.cfg.periodMs ≠ 0) (hh : s.cfg.halfCycleMs ≠ 0)
    (h : s.htr.offMs = 0) : offEntry s = periodStart s := by
  rw [offEntry_eq s hp hh, if_pos h]

/-- Settles O39: the branches of `off_entry` and of the off-interval it begins. -/
theorem offEntryOutcome : Obligations.OffEntryOutcome := by
  intro s hp hh
  refine ⟨offEntry_of_offMs_eq_zero hp hh, fun hne hrelay => ?_, fun hne hrelay => ?_⟩
  · exact (offEntry_of_offMs_ne_zero hne).trans (beginOff_of_relay_off hrelay)
  · exact (offEntry_of_offMs_ne_zero hne).trans (beginOff_of_relay_on hrelay)

/-! ### The two commands (R133, R134) -/

theorem exec_htrStart_running {s : State} (hf : s.cfgFault = false) (hphase : s.htr.phase ≠ .stopped) :
    exec .htrStart s = .next (refuse .busy s) := by
  rw [exec, execHtrStart, unlessCfgFault_operational hf, if_neg hphase]

/-- The state in which `HTR_START` starts the first period: the command answered, the stop flag cleared (R133). -/
def startAccepted (s : State) : State := respond .ok 0 { s with htr := { s.htr with stopFlag := false } }

theorem exec_htrStart_stopped {s : State} (hf : s.cfgFault = false) (hphase : s.htr.phase = .stopped) :
    exec .htrStart s = .next (periodStart (startAccepted s)) := by
  rw [exec, execHtrStart, unlessCfgFault_operational hf, if_pos hphase, startAccepted]

/-- Settles O40: the busy refusal, or the two ways a period can start with the stop flag cleared and the relay off. -/
theorem htrStartBeginsPeriod : Obligations.HtrStartBeginsPeriod := by
  intro s hf
  refine ⟨exec_htrStart_running hf, ?_⟩
  intro hphase hrelay hp hh on
  obtain ⟨onMs, offMs, hon, hoff, _, _, hrequest, _, hwait⟩ := periodStartOutcome (startAccepted s) hp hh
  refine ⟨onMs, offMs, hon, hoff, fun hz => ?_, fun hne => ?_⟩
  · rw [exec_htrStart_stopped hf hphase, hwait rfl hz hrelay]
    rfl
  · rw [exec_htrStart_stopped hf hphase, hrequest rfl hne hrelay]
    rfl

/-- Settles O41: past the configuration fault check the command writes the flag and answers. -/
theorem htrStopSetsFlagOnly : Obligations.HtrStopSetsFlagOnly := by
  intro s hf
  rw [exec, execHtrStop, unlessCfgFault_operational hf]
  rfl

/-! ### The two intervals of a period

The on-interval (`level` true) and the off-interval (`level` false) go the same way: a relay write that is skipped or
acknowledged, the wait for what is left of the budget, and the procedure that follows. -/

/-- The phase in which the relay write to `level` is pending (R34). -/
def requestPhase : Bool → Phase
  | true => .onReq
  | false => .offReq

/-- The phase in which the interval at `level` is waited for (R34). -/
def waitPhase : Bool → Phase
  | true => .onWait
  | false => .offWait

/-- The budget of the interval at `level` (R131). -/
def budget : Bool → State → Word
  | true, s => s.htr.onMs
  | false, s => s.htr.offMs

/-- What runs at the end of the interval at `level` (R138, R139). -/
def intervalEnd : Bool → State → State
  | true => offEntry
  | false => periodStart

theorem requestPhase_ne_waitPhase (level level' : Bool) : requestPhase level ≠ waitPhase level' := by
  cases level <;> cases level' <;> decide

theorem waitPhase_cases (level : Bool) : waitPhase level = .onWait ∨ waitPhase level = .offWait := by
  cases level
  · exact .inr rfl
  · exact .inl rfl

/-! ### The `TICK` and `RELAY_ACK` steps (R138, R139) -/

/-- The state a step's rule starts from when its event was alone on the wires. -/
def eventTaken (s : State) : State := { s with wires := Wires.idle, rsp := none }

theorem step_of_tick (s : State) :
    step { s with wires := { Wires.idle with tick := true } } = .next (tickStep (eventTaken s)) := (rfl)

/-- With a relay write pending, the step of an acknowledgement alone on the wires. -/
theorem step_of_ack_pending {s : State} (h : s.htr.relayReq = true) :
    step { s with wires := { Wires.idle with relayAck := true } } = .next (acknowledge (eventTaken s)) :=
  if_pos h

/-- With no relay write pending, an acknowledgement alone on the wires is no step (R181). -/
theorem step_of_ack_not_pending {s : State} (h : s.htr.relayReq = false) :
    step { s with wires := { Wires.idle with relayAck := true } } = .fault .relayAckNotEnabled :=
  if_neg (ne_true_of_eq_false h)

theorem tickStep_of_not_wait {s : State} (hon : s.htr.phase ≠ .onWait) (hoff : s.htr.phase ≠ .offWait) :
    tickStep s = countTick s := by
  simpa [hon, hoff] using tickStep_cases s

theorem tickStep_of_wait {s : State} (hwait : s.htr.phase = .onWait ∨ s.htr.phase = .offWait)
    (h : 2 ≤ s.htr.tRem.toNat) :
    tickStep s = countDown (countTick s) := by
  have hne : s.htr.tRem ≠ 1 := by
    intro e
    simp [e] at h
  rcases tickStep_cases s with ⟨hon, hoff, _⟩ | ⟨_, _, e⟩ | ⟨_, hlast, _⟩ | ⟨_, hlast, _⟩
  · exact absurd hwait (not_or.mpr ⟨hon, hoff⟩)
  · exact e
  · exact absurd hlast hne
  · exact absurd hlast hne

theorem tickStep_of_wait_last {level : Bool} {s : State} (hp : s.htr.phase = waitPhase level) (h : s.htr.tRem = 1) :
    tickStep s = intervalEnd level (countDown (countTick s)) := by
  cases level <;> simpa [hp, h, waitPhase, intervalEnd] using tickStep_cases s

/-- The first two lines of R139, with the tick counted only while the relay is on. -/
theorem countTick_eq (s : State) : countTick s =
    { s with
      time := s.time + 1
      htr := { s.htr with onTime := s.htr.onTime + if s.htr.relayState then 1 else 0 } } := by
  have hbit : ∀ b : Bool, (BitVec.ofBool b).setWidth 32 = if b then (1 : Word) else 0 := by decide
  rw [countTick, hbit]

/-- The last tick of a wait leaves `T_REM` at 0. -/
theorem countDown_of_last {s : State} (h : s.htr.tRem = 1) :
    countDown s = { s with htr := { s.htr with tRem := 0 } } := by
  rw [countDown, h]
  rfl

/-- Settles O42: the case of the tick, by the phase and by what is left of the wait. -/
theorem tickStepRule : Obligations.TickStepRule := by
  intro s onTime go t
  have hgo : go = .next (tickStep (eventTaken s)) := step_of_tick s
  have htick : countTick (eventTaken s) = t := countTick_eq (eventTaken s)
  rw [hgo, ← htick]
  refine ⟨fun hon hoff => ?_, fun hwait hrem => ?_, fun hphase hlast => ?_, fun hphase hlast => ?_⟩
  · rw [tickStep_of_not_wait (s := eventTaken s) hon hoff]
  · rw [tickStep_of_wait (s := eventTaken s) hwait hrem]
    rfl
  · rw [tickStep_of_wait_last (level := true) (s := eventTaken s) hphase hlast,
      countDown_of_last (s := countTick (eventTaken s)) hlast]
    rfl
  · rw [tickStep_of_wait_last (level := false) (s := eventTaken s) hphase hlast,
      countDown_of_last (s := countTick (eventTaken s)) hlast]
    rfl

theorem acknowledge_in_time {level : Bool} {s : State} (hp : s.htr.phase = requestPhase level)
    (h : (relayLatency s).toNat < (budget level s).toNat) :
    acknowledge s = startWait (waitPhase level) (monus (budget level s) (relayLatency s)) (relayDone level s) := by
  have hlate := Nat.not_le.mpr h
  cases level <;> rw [budget] at h hlate <;>
    simpa [hp, h, hlate, requestPhase, waitPhase, budget] using acknowledge_cases s

theorem acknowledge_late {level : Bool} {s : State} (hp : s.htr.phase = requestPhase level)
    (h : (budget level s).toNat ≤ (relayLatency s).toNat) :
    acknowledge s = intervalEnd level (startWait s.htr.phase 0 (relayDone level s)) := by
  have hearly := Nat.not_lt.mpr h
  cases level <;> rw [budget] at h hearly <;>
    simpa [hp, h, hearly, requestPhase, intervalEnd] using acknowledge_cases s

theorem acknowledge_finalReq {s : State} (hp : s.htr.phase = .finalReq) :
    acknowledge s = setPhase .stopped (relayDone false s) := by
  simpa [hp] using acknowledge_cases s

/-- Settles O43: the case of the acknowledgement, by the phase and by the latency against the budget. -/
theorem relayAckStepRule : Obligations.RelayAckStepRule := by
  intro s lat go t
  refine ⟨fun hreq u hu => ?_, fun hreq => ?_⟩
  · exact nomatch (step_of_ack_not_pending hreq).symm.trans hu
  have hgo : go = .next (acknowledge (eventTaken s)) := step_of_ack_pending hreq
  have hlat : lat = (relayLatency (eventTaken s)).toNat := (toNat_elapsed s.time s.htr.tWr).symm
  rw [hgo, hlat]
  refine ⟨fun hp h => ⟨_, toNat_monus _ _, ?_⟩, fun hp h => ?_, fun hp h => ⟨_, toNat_monus _ _, ?_⟩, fun hp h => ?_,
    fun hp => ?_⟩
  · rw [acknowledge_in_time (level := true) (s := eventTaken s) hp h]
    rfl
  · rw [acknowledge_late (level := true) (s := eventTaken s) hp h]
    rfl
  · rw [acknowledge_in_time (level := false) (s := eventTaken s) hp h]
    rfl
  · rw [acknowledge_late (level := false) (s := eventTaken s) hp h]
    rfl
  · rw [acknowledge_finalReq (s := eventTaken s) hp]
    rfl

/-! ### Waits (R139) -/

/-- The state `k` ticks later, nothing else having happened: `TIME` counts them, and `ON_TIME` while the relay is on. -/
def ticked (k : Nat) (s : State) : State :=
  { s with
    time := s.time + BitVec.ofNat 32 k
    htr := { s.htr with onTime := s.htr.onTime + (if s.htr.relayState then BitVec.ofNat 32 k else 0) } }

/-- The state `k` ticks later in a wait that they do not end. -/
def waited (k : Nat) (s : State) : State :=
  { ticked k s with htr := { (ticked k s).htr with tRem := s.htr.tRem - BitVec.ofNat 32 k } }

theorem ticked_zero (s : State) : ticked 0 s = s := by
  simp [ticked]

theorem waited_zero (s : State) : waited 0 s = s := by
  simp [waited, ticked]

theorem ofNat_succ (k : Nat) : BitVec.ofNat 32 (k + 1) = BitVec.ofNat 32 k + 1 := BitVec.ofNat_add k 1

/-- One tick more. -/
theorem countTick_ticked (k : Nat) (s : State) : countTick (ticked k s) = ticked (k + 1) s := by
  rw [countTick_eq, ticked, ticked, ofNat_succ]
  cases hr : s.htr.relayState <;> simp [hr, BitVec.add_assoc]

/-- One tick more of the wait. -/
theorem countDown_countTick_waited (k : Nat) (s : State) : countDown (countTick (waited k s)) = waited (k + 1) s := by
  have hrem : s.htr.tRem - BitVec.ofNat 32 k - 1 = s.htr.tRem - BitVec.ofNat 32 (k + 1) := by
    rw [ofNat_succ, sub_sub]
  rw [waited, waited, ← hrem, ← countTick_ticked]
  rfl

/-- What is left of a wait of `n + 1` ticks after `k` of them. -/
theorem toNat_tRem_waited {s : State} {n k : Nat} (h : s.htr.tRem.toNat = n + 1) (hk : k ≤ n + 1) :
    (waited k s).htr.tRem.toNat = n + 1 - k := by
  have hlt := s.htr.tRem.isLt
  have hkn : (BitVec.ofNat 32 k).toNat = k := (BitVec.toNat_ofNat k 32).trans (Nat.mod_eq_of_lt (by omega))
  have hle : BitVec.ofNat 32 k ≤ s.htr.tRem := by
    rw [BitVec.le_def, hkn, h]
    exact hk
  rw [waited, BitVec.toNat_sub_of_le hle, hkn, h]

/-- The ticks of a wait before its last (R139). -/
theorem tickStep_iterate_wait {s : State} {n : Nat} (hwait : s.htr.phase = .onWait ∨ s.htr.phase = .offWait)
    (h : s.htr.tRem.toNat = n + 1) {k : Nat} (hk : k ≤ n) : tickStep^[k] s = waited k s := by
  induction k with
  | zero => exact (waited_zero s).symm
  | succ k ih =>
    have hrem := toNat_tRem_waited h (k := k) (by omega)
    rw [Function.iterate_succ_apply', ih (by omega), tickStep_of_wait (s := waited k s) hwait (by omega),
      countDown_countTick_waited]

/-- One tick is left of a wait of `n + 1` ticks after `n` of them. -/
theorem tRem_waited_last {s : State} {n : Nat} (h : s.htr.tRem.toNat = n + 1) : (waited n s).htr.tRem = 1 := by
  have hrem := toNat_tRem_waited h (Nat.le_succ n)
  exact BitVec.eq_of_toNat_eq (hrem.trans (Nat.add_sub_cancel_left n 1))

/-- A wait ends in its interval's end. -/
theorem tickStep_iterate_wait_end {level : Bool} {s : State} {n : Nat} (hp : s.htr.phase = waitPhase level)
    (h : s.htr.tRem.toNat = n + 1) : tickStep^[n + 1] s = intervalEnd level (waited (n + 1) s) := by
  have hwait : s.htr.phase = .onWait ∨ s.htr.phase = .offWait := hp ▸ waitPhase_cases level
  rw [Function.iterate_succ_apply', tickStep_iterate_wait hwait h le_rfl,
    tickStep_of_wait_last (s := waited n s) hp (tRem_waited_last h), countDown_countTick_waited]

/-- Settles O44: by induction on the ticks of the wait, the last of them told apart. -/
theorem waitLastsExactlyTRemTicks : Obligations.WaitLastsExactlyTRemTicks := by
  intro s n hwait h after
  exact ⟨fun k hk => tickStep_iterate_wait hwait h hk, fun hp => tickStep_iterate_wait_end (level := true) hp h,
    fun hp => tickStep_iterate_wait_end (level := false) hp h⟩

/-! ### A whole period (R141) -/

/-- In `u`, `ms` milliseconds have passed since `s`, the relay having been on for `on` of them, in the same period and
with the same registers of the PID unit. -/
structure Elapsed (s u : State) (ms on : Nat) : Prop where
  time : u.time = s.time + BitVec.ofNat 32 ms
  onTime : u.htr.onTime = s.htr.onTime + BitVec.ofNat 32 on
  ctl : u.ctl = s.ctl
  cfg : u.cfg = s.cfg
  onMs : u.htr.onMs = s.htr.onMs
  offMs : u.htr.offMs = s.htr.offMs
  stopFlag : u.htr.stopFlag = s.htr.stopFlag

theorem Elapsed.trans {s u v : State} {ms ms' on on' : Nat} (h : Elapsed s u ms on) (h' : Elapsed u v ms' on') :
    Elapsed s v (ms + ms') (on + on') where
  time := by rw [h'.time, h.time, BitVec.add_assoc, ← BitVec.ofNat_add]
  onTime := by rw [h'.onTime, h.onTime, BitVec.add_assoc, ← BitVec.ofNat_add]
  ctl := h'.ctl.trans h.ctl
  cfg := h'.cfg.trans h.cfg
  onMs := h'.onMs.trans h.onMs
  offMs := h'.offMs.trans h.offMs
  stopFlag := h'.stopFlag.trans h.stopFlag

/-- `t` is the interval's end at `level`, run `ms` milliseconds after `s` with the relay at that level and no relay
write pending. -/
def Reaches (level : Bool) (ms on : Nat) (s t : State) : Prop :=
  ∃ u, t = intervalEnd level u ∧ Elapsed s u ms on ∧ u.htr.relayState = level ∧ u.htr.relayReq = false

theorem Reaches.of_elapsed {level : Bool} {ms ms' on on' n k : Nat} {s u t : State} (h : Elapsed s u ms on)
    (h' : Reaches level ms' on' u t) (hms : ms + ms' = n) (hon : on + on' = k) : Reaches level n k s t := by
  obtain ⟨v, ht, hv, hrest⟩ := h'
  exact ⟨v, ht, hms ▸ hon ▸ h.trans hv, hrest⟩

theorem elapsed_waited (k : Nat) (s : State) : Elapsed s (waited k s) k (if s.htr.relayState then k else 0) := by
  refine ⟨rfl, ?_, rfl, rfl, rfl, rfl, rfl⟩
  cases hr : s.htr.relayState <;> simp [waited, ticked, hr]

/-- The wait for an interval whose relay write was skipped or is over. -/
theorem reaches_of_wait {level : Bool} {s : State} {ms : Nat} (hp : s.htr.phase = waitPhase level)
    (hrelay : s.htr.relayState = level) (hreq : s.htr.relayReq = false) (hrem : s.htr.tRem.toNat = ms) (hpos : 0 < ms) :
    Reaches level ms (if level then ms else 0) s (tickStep^[ms] s) := by
  obtain ⟨n, rfl⟩ := Nat.exists_eq_add_one_of_ne_zero hpos.ne'
  have hend := tickStep_iterate_wait_end hp hrem
  have hms := elapsed_waited (n + 1) s
  rw [hrelay] at hms
  exact ⟨waited (n + 1) s, hend, hms, hrelay, hreq⟩

/-- While a relay write is pending the ticks are only counted (R139). -/
theorem tickStep_iterate_request {level : Bool} {s : State} (hp : s.htr.phase = requestPhase level) (k : Nat) :
    tickStep^[k] s = ticked k s := by
  induction k with
  | zero => exact (ticked_zero s).symm
  | succ k ih =>
    have hwait : ∀ level', (ticked k s).htr.phase ≠ waitPhase level' := fun level' e =>
      requestPhase_ne_waitPhase level level' (hp.symm.trans e)
    rw [Function.iterate_succ_apply', ih, tickStep_of_not_wait (hwait true) (hwait false), countTick_ticked]

theorem toNat_relayLatency_ticked {s : State} {k : Nat} (h : s.htr.tWr = s.time) (hk : k < 2 ^ 32) :
    (relayLatency (ticked k s)).toNat = k := by
  have hlat : relayLatency (ticked k s) = s.time + BitVec.ofNat 32 k - s.htr.tWr := (rfl)
  rw [hlat, h, add_sub_cancel_left, BitVec.toNat_ofNat, Nat.mod_eq_of_lt hk]

/-- The relay write of an interval, acknowledged `l` ticks after it began, and the wait for what is left. -/
theorem reaches_of_request {level : Bool} {s : State} {l : Nat} (hp : s.htr.phase = requestPhase level)
    (hrelay : s.htr.relayState = !level) (htWr : s.htr.tWr = s.time) (hl : l ≤ (budget level s).toNat) :
    Reaches level (budget level s).toNat (if level then (budget level s).toNat - l else l) s
      (tickStep^[(budget level s).toNat - l] (acknowledge (tickStep^[l] s))) := by
  have hlat := toNat_relayLatency_ticked htWr (hl.trans_lt (budget level s).isLt)
  have hbudget : budget level (ticked l s) = budget level s := by cases level <;> rfl
  have hphase : (ticked l s).htr.phase = requestPhase level := hp
  have hwritten : ∀ p ms, Elapsed s (startWait p ms (relayDone level (ticked l s))) l (if level then 0 else l) := by
    refine fun p ms => ⟨rfl, ?_, rfl, rfl, rfl, rfl, rfl⟩
    cases level <;> simp [ticked, hrelay]
  rw [tickStep_iterate_request hp]
  rcases hl.lt_or_eq with hlt | heq
  · have hrem := toNat_monus (budget level (ticked l s)) (relayLatency (ticked l s))
    rw [hlat, hbudget] at hrem
    rw [acknowledge_in_time hphase (by rwa [hlat, hbudget]), hbudget]
    exact .of_elapsed (hwritten _ _) (reaches_of_wait rfl rfl rfl hrem (by omega)) (by omega) (by cases level <;> simp)
  · rw [acknowledge_late hphase (by rw [hlat, hbudget, heq]), ← heq, Nat.sub_self]
    exact ⟨_, rfl, hwritten _ _, rfl, rfl⟩

/-- The off-interval that follows an on-interval, its write acknowledged `l` ticks after it began. -/
theorem Reaches.offInterval {ms on l : Nat} {s t : State} (h : Reaches true ms on s t) (hoff : s.htr.offMs ≠ 0)
    (hl : l ≤ s.htr.offMs.toNat) :
    Reaches false (ms + s.htr.offMs.toNat) (on + l) s
      (tickStep^[s.htr.offMs.toNat - l] (acknowledge (tickStep^[l] t))) := by
  obtain ⟨u, rfl, hu, hrelay, _⟩ := h
  have hbudget : budget false (requestOff u) = s.htr.offMs := hu.offMs
  have hbegin : intervalEnd true u = requestOff u :=
    (offEntry_of_offMs_ne_zero (hu.offMs ▸ hoff)).trans (beginOff_of_relay_on hrelay)
  have hrest := reaches_of_request (level := false) (s := requestOff u) (l := l) rfl hrelay rfl (by rwa [hbudget])
  rw [hbudget] at hrest
  have hbegun : Elapsed s (requestOff u) ms on := { hu with }
  rw [hbegin]
  exact .of_elapsed hbegun hrest rfl rfl

/-- `t` is the next period start, run `PERIOD_MS` milliseconds after `s`, the relay having been on for `on` of them. -/
def NextPeriod (s t : State) (relay : Bool) (on : Nat) : Prop :=
  ∃ u : State, t = periodStart u ∧ u.time = s.time + s.cfg.periodMs ∧ u.ctl = s.ctl ∧
    u.htr.relayState = relay ∧ u.htr.relayReq = false ∧ u.htr.stopFlag = s.htr.stopFlag ∧
    u.htr.onTime = s.htr.onTime + BitVec.ofNat 32 on

theorem Elapsed.nextPeriod {s u : State} {on : Nat} {relay : Bool} (h : Elapsed s u s.cfg.periodMs.toNat on)
    (hrelay : u.htr.relayState = relay) (hreq : u.htr.relayReq = false) : NextPeriod s (periodStart u) relay on := by
  have htime : u.time = s.time + s.cfg.periodMs := by rw [h.time, BitVec.ofNat_toNat, BitVec.setWidth_eq]
  exact ⟨u, rfl, htime, h.ctl, hrelay, hreq, h.stopFlag, h.onTime⟩

/-- An off-interval ends the period. -/
theorem Reaches.nextPeriod {ms on : Nat} {s t : State} (h : Reaches false ms on s t) (hms : ms = s.cfg.periodMs.toNat) :
    NextPeriod s t false on := by
  obtain ⟨u, rfl, hu, hrelay, hreq⟩ := h
  exact (hms ▸ hu).nextPeriod hrelay hreq

/-- An on-interval ends the period if no off-interval is left. -/
theorem Reaches.nextPeriod_of_no_off {ms on : Nat} {s t : State} (h : Reaches true ms on s t)
    (hms : ms = s.cfg.periodMs.toNat) (hp : s.cfg.periodMs ≠ 0) (hh : s.cfg.halfCycleMs ≠ 0) (hoff : s.htr.offMs = 0) :
    NextPeriod s t true on := by
  obtain ⟨u, rfl, hu, hrelay, hreq⟩ := h
  have hskip : intervalEnd true u = periodStart u :=
    offEntry_of_offMs_eq_zero (hu.cfg ▸ hp) (hu.cfg ▸ hh) (hu.offMs.trans hoff)
  rw [hskip]
  exact (hms ▸ hu).nextPeriod hrelay hreq

/-- Settles O45: an on-interval of `ON_MS` milliseconds, then an off-interval of `OFF_MS` or none; their sum is the
period. -/
theorem periodTakesExactlyPeriodMs : Obligations.PeriodTakesExactlyPeriodMs := by
  intro s l1 l2 hs h1 h2 onPart offPart nextPeriod
  have hphase := hs.phase
  unfold PhaseSafe at hphase
  have hrunning : s.htr.phase ≠ .stopped → s.cfg.periodMs ≠ 0 ∧ s.cfg.halfCycleMs ≠ 0 ∧
      s.htr.onMs.toNat + s.htr.offMs.toNat = s.cfg.periodMs.toNat := fun hne =>
    have ⟨_, hp, hh, hb⟩ := hs.running hne
    ⟨hp, hh, hb.sum_is_period⟩
  refine ⟨fun hp htWr => ?_, fun hp hrem => ?_, fun hon => ⟨fun hp htWr => ?_, fun hp hrem => ?_⟩⟩
  all_goals
    obtain ⟨hperiod, hhalf, hsum⟩ := hrunning (by rw [hp]; decide)
    rw [hp] at hphase
  · obtain ⟨hrelay, _⟩ := hphase
    have hon : Reaches true s.htr.onMs.toNat (s.htr.onMs.toNat - l1) s (onPart s) :=
      reaches_of_request (level := true) hp hrelay htWr h1
    exact ⟨fun hoff => (hon.offInterval hoff h2).nextPeriod hsum,
      fun hoff => hon.nextPeriod_of_no_off (by simpa [hoff] using hsum) hperiod hhalf hoff⟩
  · obtain ⟨hrelay, _, hreq, hpos, _⟩ := hphase
    have hon : Reaches true s.htr.onMs.toNat s.htr.onMs.toNat s (tickStep^[s.htr.onMs.toNat] s) :=
      reaches_of_wait hp hrelay hreq (congrArg _ hrem) (hrem ▸ hpos)
    exact ⟨fun hoff => (hon.offInterval hoff h2).nextPeriod hsum,
      fun hoff => hon.nextPeriod_of_no_off (by simpa [hoff] using hsum) hperiod hhalf hoff⟩
  · obtain ⟨hrelay, _⟩ := hphase
    have hoff : Reaches false s.htr.offMs.toNat l2 s (offPart s) :=
      reaches_of_request (level := false) hp hrelay htWr h2
    exact hoff.nextPeriod (by simpa [hon] using hsum)
  · obtain ⟨hrelay, _, hreq, hpos, _⟩ := hphase
    have hoff : Reaches false s.htr.offMs.toNat 0 s (tickStep^[s.htr.offMs.toNat] s) :=
      reaches_of_wait hp hrelay hreq (congrArg _ hrem) (hrem ▸ hpos)
    exact hoff.nextPeriod (by simpa [hon] using hsum)

/-! ### Transitions of `PHASE` (R143) -/

/-- Where a period start leads, by the stop flag and the relay (R135, R136, R142). -/
theorem periodStart_cases (s : State) (hp : s.cfg.periodMs ≠ 0) (hh : s.cfg.halfCycleMs ≠ 0) :
    (s.htr.stopFlag = true ∧ periodStart s = requestFinalOff s) ∨
    (s.htr.relayState = true ∧ ∃ b, b = setBudgets s.ctl.output.toInt s ∧
      (periodStart s = startWait .onWait b.htr.onMs b ∨ periodStart s = requestOff b)) ∨
    (s.htr.relayState = false ∧ ∃ b, b = setBudgets s.ctl.output.toInt s ∧
      (periodStart s = requestOn b ∨ periodStart s = startWait .offWait b.htr.offMs b)) := by
  cases hstop : s.htr.stopFlag with
  | true => exact .inl ⟨rfl, periodStart_of_stopFlag hstop⟩
  | false =>
    refine .inr ?_
    by_cases hon : quantizeOn s.cfg s.ctl.output.toInt = 0
    · have hbegin := periodStart_of_off hp hh hstop hon
      cases hrelay : s.htr.relayState with
      | true => exact .inl ⟨rfl, _, rfl, .inr (hbegin.trans (beginOff_of_relay_on hrelay))⟩
      | false => exact .inr ⟨rfl, _, rfl, .inr (hbegin.trans (beginOff_of_relay_off hrelay))⟩
    · have hbegin := periodStart_of_on hp hh hstop hon
      cases hrelay : s.htr.relayState with
      | true => exact .inl ⟨rfl, _, rfl, .inl (hbegin.trans (beginOn_of_relay_on hrelay))⟩
      | false => exact .inr ⟨rfl, _, rfl, .inl (hbegin.trans (beginOn_of_relay_off hrelay))⟩

/-- Where `off_entry` leads (R137). -/
theorem offEntry_cases (s : State) (hp : s.cfg.periodMs ≠ 0) (hh : s.cfg.halfCycleMs ≠ 0) :
    (s.htr.offMs = 0 ∧ offEntry s = periodStart s) ∨
    (s.htr.relayState = true ∧ offEntry s = requestOff s) ∨
    (s.htr.relayState = false ∧ offEntry s = startWait .offWait s.htr.offMs s) := by
  by_cases hoff : s.htr.offMs = 0
  · exact .inl ⟨hoff, offEntry_of_offMs_eq_zero hp hh hoff⟩
  · have hbegin := offEntry_of_offMs_ne_zero hoff
    cases hrelay : s.htr.relayState with
    | true => exact .inr (.inl ⟨rfl, hbegin.trans (beginOff_of_relay_on hrelay)⟩)
    | false => exact .inr (.inr ⟨rfl, hbegin.trans (beginOff_of_relay_off hrelay)⟩)

theorem phase_periodStart_of_relay_on {s : State} (hp : s.cfg.periodMs ≠ 0) (hh : s.cfg.halfCycleMs ≠ 0)
    (hrelay : s.htr.relayState = true) :
    (periodStart s).htr.phase = .finalReq ∨ (periodStart s).htr.phase = .onWait ∨
      (periodStart s).htr.phase = .offReq := by
  rcases periodStart_cases s hp hh with ⟨_, e⟩ | ⟨_, b, _, e | e⟩ | ⟨hoff, _⟩
  · simp [e]
  · simp [e]
  · simp [e]
  · simp [hrelay] at hoff

theorem phase_periodStart_of_relay_off {s : State} (hp : s.cfg.periodMs ≠ 0) (hh : s.cfg.halfCycleMs ≠ 0)
    (hrelay : s.htr.relayState = false) :
    (s.htr.stopFlag = true ∧ (periodStart s).htr.phase = .finalReq) ∨
      (periodStart s).htr.phase = .onReq ∨ (periodStart s).htr.phase = .offWait := by
  rcases periodStart_cases s hp hh with ⟨hstop, e⟩ | ⟨hon, _⟩ | ⟨_, b, _, e | e⟩
  · simp [e, hstop]
  · simp [hrelay] at hon
  · simp [e]
  · simp [e]

theorem phase_offEntry_of_relay_on {s : State} (hp : s.cfg.periodMs ≠ 0) (hh : s.cfg.halfCycleMs ≠ 0)
    (hrelay : s.htr.relayState = true) :
    (offEntry s).htr.phase = .offReq ∨ (offEntry s).htr.phase = .onWait ∨
      (s.htr.offMs = 0 ∧ (offEntry s).htr.phase = .finalReq) := by
  rcases offEntry_cases s hp hh with ⟨hoff, e⟩ | ⟨_, e⟩ | ⟨hoff, _⟩
  · rw [e]
    rcases phase_periodStart_of_relay_on hp hh hrelay with h | h | h
    · exact .inr (.inr ⟨hoff, h⟩)
    · exact .inr (.inl h)
    · exact .inl h
  · simp [e]
  · simp [hrelay] at hoff

/-- The transitions of a `TICK`. -/
theorem tickStep_phase {s : State} (h : Safe s) (hne : (tickStep s).htr.phase ≠ s.htr.phase) :
    (s.htr.phase = .onWait ∧ s.htr.tRem = 1 ∧ ((tickStep s).htr.phase = .offReq ∨
      (s.htr.offMs = 0 ∧ (tickStep s).htr.phase = .finalReq))) ∨
    (s.htr.phase = .offWait ∧ s.htr.tRem = 1 ∧
      ((tickStep s).htr.phase = .onReq ∨ (tickStep s).htr.phase = .finalReq)) := by
  have hphase := h.phase
  unfold PhaseSafe at hphase
  rcases tickStep_cases s with ⟨_, _, e⟩ | ⟨_, _, e⟩ | ⟨hp, hlast, e⟩ | ⟨hp, hlast, e⟩
  · simp [e] at hne
  · simp [e] at hne
  · obtain ⟨_, hperiod, hhalf, _⟩ := h.running (by rw [hp]; decide)
    rw [hp] at hphase hne
    rw [e] at hne ⊢
    refine .inl ⟨hp, hlast, ?_⟩
    have hcases := phase_offEntry_of_relay_on (s := countDown (countTick s)) hperiod hhalf hphase.1
    exact hcases.imp_right fun hrest => hrest.resolve_left hne
  · obtain ⟨_, hperiod, hhalf, _⟩ := h.running (by rw [hp]; decide)
    rw [hp] at hphase hne
    rw [e] at hne ⊢
    refine .inr ⟨hp, hlast, ?_⟩
    rcases phase_periodStart_of_relay_off (s := countDown (countTick s)) hperiod hhalf hphase.1 with
      ⟨_, hf⟩ | hon | hoff
    · exact .inr hf
    · exact .inl hon
    · exact absurd hoff hne

/-- The transitions of a `RELAY_ACK` of a pending write. -/
theorem acknowledge_phase {s : State} (h : Safe s) (hreq : s.htr.relayReq = true) :
    (s.htr.phase = .onReq ∧ ((acknowledge s).htr.phase = .onWait ∨ (acknowledge s).htr.phase = .offReq ∨
      (s.htr.offMs = 0 ∧ (acknowledge s).htr.phase = .finalReq))) ∨
    (s.htr.phase = .offReq ∧ ((acknowledge s).htr.phase = .offWait ∨ (acknowledge s).htr.phase = .onReq ∨
      (acknowledge s).htr.phase = .finalReq)) ∨
    (s.htr.phase = .finalReq ∧ (acknowledge s).htr.phase = .stopped) := by
  rcases acknowledge_cases s with ⟨hp, _, e⟩ | ⟨hp, _, e⟩ | ⟨hp, _, e⟩ | ⟨hp, _, e⟩ | ⟨hp, e⟩ | ⟨hp, _⟩
  · exact .inl ⟨hp, .inl (by rw [e, startWait_htr])⟩
  · obtain ⟨_, hperiod, hhalf, _⟩ := h.running (by rw [hp]; decide)
    refine .inl ⟨hp, ?_⟩
    rw [e]
    rcases phase_offEntry_of_relay_on (s := startWait .onReq 0 (relayDone true s)) hperiod hhalf rfl with
      hoff | hon | hf
    · exact .inr (.inl hoff)
    · exact .inl hon
    · exact .inr (.inr hf)
  · exact .inr (.inl ⟨hp, .inl (by rw [e, startWait_htr])⟩)
  · obtain ⟨_, hperiod, hhalf, _⟩ := h.running (by rw [hp]; decide)
    refine .inr (.inl ⟨hp, ?_⟩)
    rw [e]
    rcases phase_periodStart_of_relay_off (s := startWait .offReq 0 (relayDone false s)) hperiod hhalf rfl with
      ⟨_, hf⟩ | hon | hoff
    · exact .inr (.inr hf)
    · exact .inr (.inl hon)
    · exact .inl hoff
  · exact .inr (.inr ⟨hp, by rw [e, setPhase_htr]⟩)
  · have hphase := h.phase
    unfold PhaseSafe at hphase
    rcases hp with hp | hp | hp <;> simp [hp, hreq] at hphase

/-- `HTR_START` is refused or starts the first period (R133). -/
theorem exec_htrStart_cases {s t : State} (h : exec .htrStart s = .next t) :
    (∃ c, t = refuse c s) ∨ (s.cfgFault = false ∧ s.htr.phase = .stopped ∧ t = periodStart (startAccepted s)) := by
  cases hf : s.cfgFault with
  | true =>
    rw [exec, execHtrStart, unlessCfgFault_faulted hf, Host.Outcome.next.injEq] at h
    exact .inl ⟨_, h.symm⟩
  | false =>
    by_cases hphase : s.htr.phase = .stopped
    · rw [exec_htrStart_stopped hf hphase, Host.Outcome.next.injEq] at h
      exact .inr ⟨rfl, hphase, h.symm⟩
    · rw [exec_htrStart_running hf hphase, Host.Outcome.next.injEq] at h
      exact .inl ⟨_, h.symm⟩

/-- `HTR_STOP` moves the stop flag at most (R134). -/
theorem exec_htrStop_htr {s t : State} (h : exec .htrStop s = .next t) :
    ∃ stop, t.htr = { s.htr with stopFlag := stop } := by
  rw [exec, execHtrStop, unlessCfgFault, Host.Outcome.next.injEq] at h
  subst h
  split
  · exact ⟨_, rfl⟩
  · exact ⟨_, rfl⟩

/-- A command leaves all of HeaterState but the stop flag, or is the `HTR_START` that starts the first period. -/
theorem cmdStep_htr_cases {w : CmdWord} {s t : State} (h : cmdStep w s = .next t) :
    (∃ stop, t.htr = { s.htr with stopFlag := stop }) ∨
    (decode w = some .htrStart ∧ s.cfgFault = false ∧ s.htr.phase = .stopped ∧ t = periodStart (startAccepted s)) := by
  rcases cmdStep_cases h with ⟨i, hdec, hexec⟩ | ⟨_, rfl⟩
  · by_cases hstart : i = .htrStart
    · subst hstart
      rcases exec_htrStart_cases hexec with ⟨_, rfl⟩ | hstarted
      · exact .inl ⟨_, rfl⟩
      · exact .inr ⟨hdec, hstarted⟩
    · by_cases hstop : i = .htrStop
      · subst hstop
        exact .inl (exec_htrStop_htr hexec)
      · exact .inl ⟨_, exec_keeps_htr hexec hstart hstop⟩
  · exact .inl ⟨_, rfl⟩

/-- A stopped loop of a safe state has its relay off, and its parameters have passed the check if it is operational. -/
theorem Safe.stopped {s : State} (h : Safe s) (hf : s.cfgFault = false) (hp : s.htr.phase = .stopped) :
    s.htr.relayState = false ∧ s.cfg.periodMs ≠ 0 ∧ s.cfg.halfCycleMs ≠ 0 := by
  obtain ⟨_, hperiod, hhalf, _, _⟩ := (valid_iff _).mp (h.valid_of_operational hf)
  have hphase := h.phase
  rw [PhaseSafe, hp] at hphase
  obtain ⟨_, hrelay, _⟩ := hphase
  exact ⟨hrelay, hperiod, hhalf⟩

/-- Settles O46: event by event; only a tick, an acknowledgement and `HTR_START` move the loop. -/
theorem phaseTransitions : Obligations.PhaseTransitions := by
  intro s t hs hr h hne
  rcases step_cases h with ⟨cfg, _, hreset, _⟩ | ⟨_, _, hev, rfl⟩ | ⟨_, _, hev, hreq, rfl⟩ | ⟨v, _, _, _, _, rfl⟩ |
    ⟨w, _, _, hev, _, hcmd⟩ | ⟨_, _, _, rfl⟩
  · simp [hr] at hreset
  · rcases tickStep_phase (takeEvent_safe hs .tick) hne with ⟨hp, hlast, ht⟩ | ⟨hp, hlast, ht⟩
    · exact .inr (.inr (.inl ⟨hp, hev, hlast, ht⟩))
    · exact .inr (.inr (.inr (.inr (.inl ⟨hp, hev, hlast, ht⟩))))
  · rcases acknowledge_phase (takeEvent_safe hs .relayAck) hreq with ⟨hp, ht⟩ | ⟨hp, ht⟩ | ⟨hp, ht⟩
    · exact .inr (.inl ⟨hp, hev, ht⟩)
    · exact .inr (.inr (.inr (.inl ⟨hp, hev, ht⟩)))
    · exact .inr (.inr (.inr (.inr (.inr ⟨hp, hev, ht⟩))))
  · simp at hne
  · rcases cmdStep_htr_cases hcmd with ⟨_, e⟩ | ⟨hdec, hf, hp, rfl⟩
    · simp [e] at hne
    · obtain ⟨hrelay, hperiod, hhalf⟩ := hs.stopped hf hp
      have ht := phase_periodStart_of_relay_off (s := startAccepted (takeEvent (.cmd w) s)) hperiod hhalf hrelay
      exact .inl ⟨hp, ⟨w, hev, hdec⟩, ht.resolve_left fun ⟨hstop, _⟩ => nomatch hstop⟩
  · obtain ⟨_, _, e⟩ := nextCycle_frame s
    simp [e] at hne

/-! ### The relay wire (R67, R144) -/

/-- A relay write has just been started in `t`: on while the relay is off, off while it is on, or the forced-off write
of a shutdown. -/
def WriteStarted (stopFlag : Bool) (t : State) : Prop :=
  t.htr.relayReq = true ∧ t.htr.tWr = t.time ∧
    ((t.htr.phase = .onReq ∧ t.htr.relayLevel = true ∧ t.htr.relayState = false) ∨
     (t.htr.phase = .offReq ∧ t.htr.relayLevel = false ∧ t.htr.relayState = true) ∨
     (t.htr.phase = .finalReq ∧ t.htr.relayLevel = false ∧ stopFlag = true))

/-- From `s` to `t` the relay wire stands and no write is requested, or a write has just been started. -/
def WireFollowsWrites (s t : State) : Prop :=
  (t.htr.relayLevel = s.htr.relayLevel ∧ (t.htr.relayReq = true → s.htr.relayReq = true)) ∨
  WriteStarted s.htr.stopFlag t

theorem periodStart_wire (s : State) (hp : s.cfg.periodMs ≠ 0) (hh : s.cfg.halfCycleMs ≠ 0) :
    WireFollowsWrites s (periodStart s) := by
  rcases periodStart_cases s hp hh with ⟨hstop, e⟩ | ⟨hrelay, b, rfl, e | e⟩ | ⟨hrelay, b, rfl, e | e⟩ <;> rw [e]
  · exact .inr ⟨rfl, rfl, .inr (.inr ⟨rfl, rfl, hstop⟩)⟩
  · exact .inl ⟨rfl, id⟩
  · exact .inr ⟨rfl, rfl, .inr (.inl ⟨rfl, rfl, hrelay⟩)⟩
  · exact .inr ⟨rfl, rfl, .inl ⟨rfl, rfl, hrelay⟩⟩
  · exact .inl ⟨rfl, id⟩

theorem offEntry_wire (s : State) (hp : s.cfg.periodMs ≠ 0) (hh : s.cfg.halfCycleMs ≠ 0) :
    WireFollowsWrites s (offEntry s) := by
  rcases offEntry_cases s hp hh with ⟨_, e⟩ | ⟨hrelay, e⟩ | ⟨_, e⟩ <;> rw [e]
  · exact periodStart_wire s hp hh
  · exact .inr ⟨rfl, rfl, .inr (.inl ⟨rfl, rfl, hrelay⟩)⟩
  · exact .inl ⟨rfl, id⟩

/-- What comes before the procedures run may clear `RELAY_REQ`, but neither moves the wire nor sets the stop flag. -/
theorem WireFollowsWrites.of_before {s u t : State} (h : WireFollowsWrites u t)
    (hlevel : u.htr.relayLevel = s.htr.relayLevel) (hreq : u.htr.relayReq = true → s.htr.relayReq = true)
    (hstop : u.htr.stopFlag = true → s.htr.stopFlag = true) : WireFollowsWrites s t := by
  rcases h with ⟨hkept, hpending⟩ | ⟨hwrite, hstamp, hwhich⟩
  · exact .inl ⟨hkept.trans hlevel, fun ht => hreq (hpending ht)⟩
  · exact .inr ⟨hwrite, hstamp, hwhich.imp_right (.imp_right fun ⟨hp, hl, hs⟩ => ⟨hp, hl, hstop hs⟩)⟩

theorem tickStep_wire {s : State} (h : Safe s) : WireFollowsWrites s (tickStep s) := by
  rcases tickStep_cases s with ⟨_, _, e⟩ | ⟨_, _, e⟩ | ⟨hp, _, e⟩ | ⟨hp, _, e⟩ <;> rw [e]
  · exact .inl ⟨rfl, id⟩
  · exact .inl ⟨rfl, id⟩
  · obtain ⟨_, hperiod, hhalf, _⟩ := h.running (by rw [hp]; decide)
    exact (offEntry_wire (countDown (countTick s)) hperiod hhalf).of_before rfl id id
  · obtain ⟨_, hperiod, hhalf, _⟩ := h.running (by rw [hp]; decide)
    exact (periodStart_wire (countDown (countTick s)) hperiod hhalf).of_before rfl id id

theorem acknowledge_wire {s : State} (h : Safe s) (hreq : s.htr.relayReq = true) :
    WireFollowsWrites s (acknowledge s) := by
  rcases acknowledge_cases s with ⟨_, _, e⟩ | ⟨hp, _, e⟩ | ⟨_, _, e⟩ | ⟨hp, _, e⟩ | ⟨_, e⟩ | ⟨_, e⟩ <;> rw [e]
  · exact .inl ⟨rfl, fun _ => hreq⟩
  · obtain ⟨_, hperiod, hhalf, _⟩ := h.running (by rw [hp]; decide)
    exact (offEntry_wire (startWait .onReq 0 (relayDone true s)) hperiod hhalf).of_before rfl (fun _ => hreq) id
  · exact .inl ⟨rfl, fun _ => hreq⟩
  · obtain ⟨_, hperiod, hhalf, _⟩ := h.running (by rw [hp]; decide)
    exact (periodStart_wire (startWait .offReq 0 (relayDone false s)) hperiod hhalf).of_before rfl (fun _ => hreq) id
  · exact .inl ⟨rfl, fun _ => hreq⟩
  · exact .inl ⟨rfl, fun _ => hreq⟩

theorem cmdStep_wire {w : CmdWord} {s t : State} (h : Safe s) (hcmd : cmdStep w s = .next t) :
    WireFollowsWrites s t := by
  rcases cmdStep_htr_cases hcmd with ⟨_, e⟩ | ⟨_, hf, hp, rfl⟩
  · exact .inl (by simp [e])
  · obtain ⟨_, hperiod, hhalf⟩ := h.stopped hf hp
    exact (periodStart_wire (startAccepted s) hperiod hhalf).of_before rfl id fun hstop => nomatch hstop

/-- Settles O47: event by event, the wire follows the relay writes that are started. -/
theorem relayLevelChangesOnlyAtWriteStart : Obligations.RelayLevelChangesOnlyAtWriteStart := by
  intro s t hs hr h hchange
  have hwire : WireFollowsWrites s t := by
    rcases step_cases h with ⟨cfg, _, hreset, _⟩ | ⟨_, _, _, rfl⟩ | ⟨_, _, _, hreq, rfl⟩ | ⟨v, _, _, _, _, rfl⟩ |
      ⟨w, _, _, _, _, hcmd⟩ | ⟨_, _, _, rfl⟩
    · simp [hr] at hreset
    · exact tickStep_wire (takeEvent_safe hs .tick)
    · exact acknowledge_wire (takeEvent_safe hs .relayAck) hreq
    · exact .inl ⟨rfl, id⟩
    · exact cmdStep_wire (s := takeEvent (.cmd w) s) (takeEvent_safe hs (.cmd w)) hcmd
    · obtain ⟨_, _, e⟩ := nextCycle_frame s
      rw [e]
      exact .inl ⟨rfl, id⟩
  refine hwire.resolve_left fun ⟨hlevel, hpending⟩ => ?_
  rcases hchange with hmoved | ⟨hreq, hidle⟩
  · exact hmoved hlevel
  · simp [hpending hreq] at hidle

end Sys2Proof.Machine
end

section
/-! PROOFS of the statement about the system command (spec/42_system_commands.md): `GET_REG` as a lookup in the register
map of R61. -/

namespace Sys2Proof.Machine

/-! ### `GET_REG` (R160) -/

theorem mem_allRegs (r : Reg) : r ∈ allRegs := by
  cases r <;> decide

/-- `GET_REG` of an index no register has is refused with `E_ARG` (R160). -/
theorem exec_getReg_unmapped {idx : Word} (h : ∀ r, regIndex r ≠ idx) (s : State) :
    exec (.getReg idx) s = .next (refuse .arg s) := by
  rw [exec, execGetReg, (regOfIndex_eq_none_iff idx).mpr h]

/-- The register map of R61 in a state: each register's index with the value it reads. -/
def registerMap (s : State) : List (Word × Word) := allRegs.map fun r => (regIndex r, readReg s r)

theorem mem_registerMap (s : State) (r : Reg) : (regIndex r, readReg s r) ∈ registerMap s :=
  List.mem_map_of_mem (mem_allRegs r)

/-- `GET_REG` of every index in the register map answers the value beside it and changes nothing else. -/
theorem exec_getReg_of_mem_registerMap {s : State} {p : Word × Word} (hp : p ∈ registerMap s) :
    exec (.getReg p.1) s = .next (respond .ok p.2 s) := by
  obtain ⟨r, _, rfl⟩ := List.mem_map.mp hp
  exact exec_getReg_regIndex r s

/-- Settles O14: the table of the statement is the register map, and an index outside it is no register's. -/
theorem getRegReadsMappedRegisters : Obligations.GetRegReadsMappedRegisters := fun s =>
  ⟨fun _ hp => exec_getReg_of_mem_registerMap (s := s) hp,
    fun _ hidx => exec_getReg_unmapped (fun r => hidx _ (mem_registerMap s r)) s⟩

end Sys2Proof.Machine
end

section
/-! PROOFS of the statements about exceptions (spec/60_exceptions.md): the order of simultaneous events, refusals and
their causes, the waits for an answer, and configuration fault mode. -/

namespace Sys2Proof.Machine

/-! ### The order of simultaneous events (R184) -/

/-- The step of a state whose next event is known. -/
theorem step_of_nextEvent {s : State} {e : Event} (h : nextEvent s = some e) : step s = eventStep e (takeEvent e s) := by
  rw [step, h]

theorem nextEvent_of_reset {s : State} {cfg : Config} (hr : s.wires.reset = some cfg) :
    nextEvent s = some (.reset cfg) := by
  rw [nextEvent, hr]

theorem nextEvent_of_tick {s : State} (hr : s.wires.reset = none) (ht : s.wires.tick = true) :
    nextEvent s = some .tick := by
  rw [nextEvent, hr, ht]

theorem nextEvent_of_relayAck {s : State} (hr : s.wires.reset = none) (ht : s.wires.tick = false)
    (ha : s.wires.relayAck = true) : nextEvent s = some .relayAck := by
  rw [nextEvent, hr, ht, ha]

theorem nextEvent_of_qryRsp {s : State} {v : Word} (hr : s.wires.reset = none) (ht : s.wires.tick = false)
    (ha : s.wires.relayAck = false) (hq : s.wires.qryRsp = some v) : nextEvent s = some (.qryRsp v) := by
  rw [nextEvent, hr, ht, ha, hq]

/-- With no other event left in the cycle, what the command port offers is next. -/
theorem nextEvent_of_cmdEvent {s : State} (hr : s.wires.reset = none) (ht : s.wires.tick = false)
    (ha : s.wires.relayAck = false) (hq : s.wires.qryRsp = none) : nextEvent s = cmdEvent s := by
  rw [nextEvent, hr, ht, ha, hq]

/-- Settles O10: which event is next, and the step of each. -/
theorem simultaneousEventsInFixedOrder : Obligations.SimultaneousEventsInFixedOrder := by
  intro s w
  refine ⟨fun cfg hr => ?_, fun hr ht => ?_, fun hr ht ha => ?_, fun v hr ht ha hq => ?_, fun c hr ht ha hq hc hp => ?_⟩
  · exact step_of_nextEvent (s := { s with wires := w }) (nextEvent_of_reset hr)
  · exact step_of_nextEvent (s := { s with wires := w }) (nextEvent_of_tick hr ht)
  · exact step_of_nextEvent (s := { s with wires := w }) (nextEvent_of_relayAck hr ht ha)
  · exact step_of_nextEvent (s := { s with wires := w }) (nextEvent_of_qryRsp hr ht ha hq)
  · have halone : w = Wires.command c := by
      obtain ⟨reset, tick, relayAck, qryRsp, cmd⟩ := w
      simp_all [Wires.command, Wires.idle]
    rw [halone]
    exact step_of_command hp c

/-- Settles O11: no event is next, and no clock cycle is to come. -/
theorem silentBlockIsIdle : Obligations.SilentBlockIsIdle := by
  intro s hw ha
  have hnone : nextEvent s = none := by
    rw [nextEvent_of_cmdEvent (by rw [hw]; rfl) (by rw [hw]; rfl) (by rw [hw]; rfl) (by rw [hw]; rfl)]
    simp [cmdEvent, hw, Wires.idle]
  rw [step, hnone, nextCycle, ha]

/-- Settles O12. -/
theorem unsolicitedAnswersHaveNoStep : Obligations.UnsolicitedAnswersHaveNoStep :=
  fun _ => ⟨fun v hp => step_of_answer_not_pending hp v, step_of_ack_not_pending⟩

/-! ### Refusals (R171 to R173) -/

/-- A refusal answers with its own code. -/
theorem code_of_refuse {c c' : ErrCode} {d : Word} {s : State}
    (h : (refuse c' s).rsp = some { status := .err c, data := d }) : c = c' := by
  simp only [refuse_rsp, Option.some.injEq, Response.mk.injEq, RspCode.err.injEq] at h
  exact h.1.symm

/-- A command that answers with a refusal does nothing but refuse (R171). -/
theorem exec_refused {i : Instr} {s t : State} {c : ErrCode} {d : Word} (hs : s.rsp = none) (h : exec i s = .next t)
    (hrsp : t.rsp = some { status := .err c, data := d }) : t = refuse c s := by
  rcases exec_err hs h with ⟨_, hanswer⟩ | ⟨c', rfl⟩
  · exact absurd hrsp (hanswer c d)
  · rw [code_of_refuse hrsp]

theorem cmdStep_refused {w : CmdWord} {s t : State} {c : ErrCode} {d : Word} (hs : s.rsp = none)
    (h : cmdStep w s = .next t) (hrsp : t.rsp = some { status := .err c, data := d }) : t = refuse c s := by
  rcases cmdStep_cases h with ⟨i, _, hexec⟩ | ⟨_, rfl⟩
  · exact exec_refused hs hexec hrsp
  · rw [code_of_refuse hrsp]

/-- Settles O32: only a `CMD` step and a completion answer, a completion answers `OK`, and a `CMD` step that answers
a refusal is `refuse`. -/
theorem refusalIsPrecise : Obligations.RefusalIsPrecise := by
  intro s t c d h hrsp bit
  rcases oneResponsePerCommand.2 s t h (by rw [hrsp]; rfl) with ⟨w, hev⟩ | ⟨v, hev, hp⟩
  · refine ⟨⟨w, hev⟩, ?_⟩
    rw [step_of_nextEvent hev] at h
    have hbit : bit = errBit c := by cases c <;> rfl
    rw [cmdStep_refused (takeEvent_rsp _ s) h hrsp, hbit]
    rfl
  · have hcomplete : step s = .next (completeEval v (takeEvent (.qryRsp v) s)) :=
      (step_of_nextEvent hev).trans (if_pos hp)
    rw [hcomplete, Host.Outcome.next.injEq] at h
    simp [← h] at hrsp

/-- `period_start()` answers nothing. -/
theorem rsp_periodStart (s : State) : (periodStart s).rsp = s.rsp := by
  obtain ⟨htr, e⟩ := periodStart_htr s
  rw [e]

/-- Settles O33: row by row of what a command can do; a row that refuses has its cause, and no other row answers a
refusal. -/
theorem refusalCauses : Obligations.RefusalCauses := by
  intro i s t c d hs h hrsp
  rcases exec_cases h with ⟨hf, hi, rfl⟩ | ⟨_, _, _, _, rfl⟩ | ⟨idx, hi, hunmapped, rfl⟩ | ⟨hf, hrow⟩
  · exact .inl ⟨code_of_refuse hrsp, hf, hi⟩
  · simp at hrsp
  · exact .inr (.inr (.inr (.inl ⟨code_of_refuse hrsp, idx, hi, (regOfIndex_eq_none_iff_range idx).mp hunmapped⟩)))
  rcases hrow with ⟨_, _, rfl⟩ | ⟨_, _, rfl⟩ | ⟨_, _, _, _, _, _, rfl⟩ | ⟨p, g, d', hi, hfits, rfl⟩ |
    ⟨lo, hi, hl, hlt, rfl⟩ | ⟨_, _, _, _, rfl⟩ | ⟨v, hi, hneg, rfl⟩ | ⟨_, _, _, rfl⟩ | ⟨_, _, rfl⟩ | ⟨_, _, rfl⟩ |
    ⟨_, _, rfl⟩ | ⟨hi, hphase, rfl⟩ | ⟨_, rfl⟩
  · simp at hrsp
  · simp [hs] at hrsp
  · simp at hrsp
  · refine .inr (.inr (.inr (.inr (.inl ⟨code_of_refuse hrsp, hf, p, g, d', hi, fun hrange => hfits ?_⟩))))
    rw [fitsFx_iff, fitsFx_iff]
    omega
  · exact .inr (.inr (.inl ⟨code_of_refuse hrsp, hf, lo, hi, hl, hlt⟩))
  · simp at hrsp
  · exact .inr (.inl ⟨code_of_refuse hrsp, hf, v, hi, hneg⟩)
  · simp at hrsp
  · simp [storeClampedSetpoint] at hrsp
  · simp [storeClampedSetpoint] at hrsp
  · rw [rsp_periodStart, respond_rsp] at hrsp
    simp at hrsp
  · exact .inr (.inr (.inr (.inr (.inr ⟨code_of_refuse hrsp, hf, hi, hphase⟩))))
  · simp at hrsp

/-! ### The two waits (R177) -/

/-- While an evaluation is pending every step but its answer and reset leaves it pending, with its acceptance time and
ControllerState, takes no command and answers nothing. -/
theorem step_keeps_query {s t : State} (hr : s.wires.reset = none) (h : step s = .next t) (hp : s.evalPending = true)
    (hans : ∀ v, nextEvent s ≠ some (.qryRsp v)) :
    t.evalPending = true ∧ t.ctl = s.ctl ∧ t.t0 = s.t0 ∧ t.rsp = none ∧ ∀ w, nextEvent s ≠ some (.cmd w) := by
  rcases step_cases h with ⟨cfg, _, hreset, _⟩ | ⟨_, _, hev, rfl⟩ | ⟨_, _, hev, _, rfl⟩ | ⟨v, _, _, hev, _, _⟩ |
    ⟨w, _, _, _, hopen, _⟩ | ⟨_, _, hev, rfl⟩
  · simp [hr] at hreset
  · obtain ⟨htr, e, _⟩ := tickStep_frame (takeEvent .tick s)
    simp [e, hp, hev]
  · obtain ⟨htr, e, _⟩ := acknowledge_frame (takeEvent .relayAck s)
    simp [e, hp, hev]
  · exact absurd hev (hans v)
  · simp [hp] at hopen
  · obtain ⟨wires, arrivals, e⟩ := nextCycle_frame s
    simp [e, hp, hev]

/-- A relay write is pending in the three request phases alone (R144). -/
theorem Safe.phase_of_relayReq {s : State} (h : Safe s) (hreq : s.htr.relayReq = true) :
    s.htr.phase = .onReq ∨ s.htr.phase = .offReq ∨ s.htr.phase = .finalReq := by
  have hphase := h.phase
  unfold PhaseSafe at hphase
  cases hp : s.htr.phase <;> simp [hp, hreq] at hphase ⊢

/-- While a relay write is pending every step but its acknowledgement and reset leaves HeaterState as it is, but for
`ON_TIME` and the stop flag. -/
theorem step_keeps_pending_write {s t : State} (hs : Safe s) (hr : s.wires.reset = none) (h : step s = .next t)
    (hreq : s.htr.relayReq = true) (hack : nextEvent s ≠ some .relayAck) :
    ∃ onTime stop, t.htr = { s.htr with onTime := onTime, stopFlag := stop } := by
  have hphase := hs.phase_of_relayReq hreq
  rcases step_cases h with ⟨cfg, _, hreset, _⟩ | ⟨_, _, _, rfl⟩ | ⟨_, _, hev, _, _⟩ | ⟨v, _, _, _, _, rfl⟩ |
    ⟨w, _, _, _, _, hcmd⟩ | ⟨_, _, _, rfl⟩
  · simp [hr] at hreset
  · have hcount : tickStep (takeEvent .tick s) = countTick (takeEvent .tick s) := by
      apply tickStep_of_not_wait <;> rcases hphase with hp | hp | hp <;> simp [hp]
    rw [hcount]
    exact ⟨_, _, rfl⟩
  · exact absurd hev hack
  · exact ⟨_, _, rfl⟩
  · rcases cmdStep_htr_cases hcmd with ⟨stop, e⟩ | ⟨_, _, hstopped, _⟩
    · exact ⟨_, stop, e⟩
    · rw [takeEvent_htr] at hstopped
      simp [hstopped] at hphase
  · obtain ⟨_, _, e⟩ := nextCycle_frame s
    rw [e]
    exact ⟨_, _, rfl⟩

/-- Settles O51, one wait at a time. -/
theorem stuckUntilAnswered : Obligations.StuckUntilAnswered := by
  intro s t hs hr h
  refine ⟨step_keeps_query hr h, fun hreq hack => ?_⟩
  obtain ⟨onTime, stop, e⟩ := step_keeps_pending_write hs hr h hreq hack
  simp [e, hreq]

/-! ### Configuration fault mode (R173, R176) -/

/-- Every command but `GET_REG` passes the configuration fault check before its own. -/
theorem exec_of_cfgFault {s : State} (hf : s.cfgFault = true) {i : Instr} (hi : ∀ idx, i ≠ .getReg idx) :
    exec i s = .next (refuse .fault s) := by
  cases i with
  | getReg idx => exact absurd rfl (hi idx)
  | pidEval | pidSetGains | pidSetLimits | pidSetSetpoint | pidIncSetpoint | pidDecSetpoint | htrStart | htrStop =>
    exact congrArg Host.Outcome.next (unlessCfgFault_faulted hf _)

/-- Settles O31. -/
theorem configFaultRefusesAllButGetReg : Obligations.ConfigFaultRefusesAllButGetReg :=
  fun _ _ hf hi => exec_of_cfgFault hf hi

/-- In configuration fault mode no command writes ControllerState: it only reads or is refused. -/
theorem cmdStep_keeps_ctl_of_cfgFault {w : CmdWord} {s t : State} (hf : s.cfgFault = true)
    (h : cmdStep w s = .next t) : t.ctl = s.ctl := by
  rcases cmdStep_cases h with ⟨i, _, hexec⟩ | ⟨_, rfl⟩
  · by_cases hi : ∃ idx, i = .getReg idx
    · exact exec_keeps_ctl hexec (.inr (.inr (.inr hi)))
    · rw [exec_of_cfgFault hf (not_exists.mp hi), Host.Outcome.next.injEq] at hexec
      rw [← hexec, refuse_ctl]
  · rfl

/-- In configuration fault mode no step but reset moves ControllerState or `ON_TIME`: no query is open to be answered,
and the relay is off. -/
theorem step_keeps_ctl_onTime_of_cfgFault {s t : State} (hs : Safe s) (hf : s.cfgFault = true)
    (hr : s.wires.reset = none) (h : step s = .next t) : t.ctl = s.ctl ∧ t.htr.onTime = s.htr.onTime := by
  rcases step_cases h with ⟨cfg, _, hreset, _⟩ | ⟨_, _, _, rfl⟩ | ⟨_, _, _, _, rfl⟩ | ⟨v, _, _, _, hp, _⟩ |
    ⟨w, _, _, _, _, hcmd⟩ | ⟨_, _, _, rfl⟩
  · simp [hr] at hreset
  · have hphase := hs.phase
    rw [PhaseSafe, hs.fault_stopped hf] at hphase
    obtain ⟨_, hrelay, _⟩ := hphase
    obtain ⟨htr, e, _, _, htime⟩ := tickStep_frame (takeEvent .tick s)
    simp [e, htime, hrelay]
  · obtain ⟨htr, e, _, htime⟩ := acknowledge_frame (takeEvent .relayAck s)
    simp [e, htime]
  · simp [hs.fault_no_query hf] at hp
  · obtain ⟨_, _, _, _, _, htime, _⟩ := cmdStep_frame hcmd
    exact ⟨cmdStep_keeps_ctl_of_cfgFault (s := takeEvent (.cmd w) s) hf hcmd, htime⟩
  · obtain ⟨wires, arrivals, e⟩ := nextCycle_frame s
    simp [e]

/-- Settles O52: the mode is kept with the parameters, the state stays safe, and a safe state in the mode is stopped
with nothing pending. -/
theorem configFaultModePersists : Obligations.ConfigFaultModePersists := by
  intro s t hs hf hr h
  have ht : Safe t := stepKeepsSafe s t hs h
  have hft : t.cfgFault = true := (step_keeps_parameters hr h).2.trans hf
  have hphase := ht.phase
  rw [PhaseSafe, ht.fault_stopped hft] at hphase
  obtain ⟨hstop, _, hlevel, hreq⟩ := hphase
  obtain ⟨hctl, honTime⟩ := step_keeps_ctl_onTime_of_cfgFault hs hf hr h
  exact ⟨hft, ht.fault_stopped hft, hstop, hlevel, honTime, ht.fault_no_query hft, hreq, hctl, step_time hr h⟩

end Sys2Proof.Machine
end

section
/-! PROOFS of the statements about reset and hazards (spec/70_reset_and_hazards.md): a block that is reset and never
tuned stays cold, and the reset step register by register. -/

namespace Sys2Proof.Machine

/-! ### A block that is never tuned (R201) -/

/-- Right after reset the block is cold, under every parameters. -/
theorem afterReset_cold (cfg : Config) : Cold (State.afterReset cfg) where
  no_gains := ⟨rfl, rfl, rfl⟩
  floor_zero := rfl
  no_integral := rfl
  no_output := rfl
  relay_off := rfl
  wire_off := rfl

/-- Only ControllerState, the relay belief and the relay wire make a state cold. -/
theorem Cold.congr {s t : State} (h : Cold s) (hctl : t.ctl = s.ctl) (hrelay : t.htr.relayState = s.htr.relayState)
    (hlevel : t.htr.relayLevel = s.htr.relayLevel) : Cold t where
  no_gains := hctl ▸ h.no_gains
  floor_zero := hctl ▸ h.floor_zero
  no_integral := hctl ▸ h.no_integral
  no_output := hctl ▸ h.no_output
  relay_off := hrelay.trans h.relay_off
  wire_off := hlevel.trans h.wire_off

theorem takeEvent_cold {s : State} (h : Cold s) (e : Event) : Cold (takeEvent e s) := h.congr rfl rfl rfl

theorem clamp_zero {hi : Int} (h : 0 ≤ hi) : clamp 0 0 hi = 0 := by
  rw [clamp_eq 0 h]
  omega

/-- With `KI` = 0 and nothing integrated, the clamp at a lower bound 0 keeps the integral 0, whatever the sample (R106). -/
theorem newIntegral_of_cold {s : State} (h : Cold s) (hmax : 0 ≤ s.ctl.outMax.toInt) (inp : Int) :
    newIntegral s.ctl inp = 0 := by
  obtain ⟨_, hki, _⟩ := h.no_gains
  simp [newIntegral, hki, h.no_integral, h.floor_zero, floorDiv, clamp_zero hmax]

/-- With all gains 0 the accumulator is the new integral alone, which is 0 (R106). -/
theorem newOutput_of_cold {s : State} (h : Cold s) (hmax : 0 ≤ s.ctl.outMax.toInt) (inp : Int) :
    newOutput s.ctl inp = 0 := by
  obtain ⟨hkp, _, hkd⟩ := h.no_gains
  have hacc : evalAcc s.ctl inp = 0 := by simp [evalAcc, newIntegral_of_cold h hmax, hkp, hkd]
  simp [newOutput, hacc, h.floor_zero, floorDiv, clamp_zero hmax]

/-- The completion of an evaluation stores the two zeros, whatever the sensor answers. -/
theorem completeEval_cold {s : State} (hs : Safe s) (h : Cold s) (v : Word) : Cold (completeEval v s) := by
  have hmax : 0 ≤ s.ctl.outMax.toInt := by simpa [h.floor_zero] using hs.controller.limits_ordered
  exact { h with
    no_integral := congrArg u32 (newIntegral_of_cold h hmax v.toInt)
    no_output := congrArg u32 (newOutput_of_cold h hmax v.toInt) }

/-- No output, no on-interval (R132 (b)): a cold period is an off-interval with the relay left alone, or the forced-off
write of a shutdown. -/
theorem periodStart_cold {s : State} (h : Cold s) (hp : s.cfg.periodMs ≠ 0) (hh : s.cfg.halfCycleMs ≠ 0) :
    Cold (periodStart s) := by
  cases hstop : s.htr.stopFlag with
  | true =>
    rw [periodStart_of_stopFlag hstop]
    exact h.congr rfl rfl h.wire_off.symm
  | false =>
    have hduty : s.ctl.output.toInt ≤ 0 := by simp [h.no_output]
    have hcold : Cold (setBudgets s.ctl.output.toInt s) := h.congr rfl rfl rfl
    rw [periodStart_of_off hp hh hstop (quantizeOn_nonpos hh hduty), beginOff_of_relay_off hcold.relay_off]
    exact hcold.congr rfl rfl rfl

/-- A cold loop is never in `ON_WAIT`, and its wait in `OFF_WAIT` ends in a period start. -/
theorem tickStep_cold {s : State} (hs : Safe s) (h : Cold s) : Cold (tickStep s) := by
  rcases tickStep_cases s with ⟨_, _, e⟩ | ⟨_, _, e⟩ | ⟨hp, _, _⟩ | ⟨hp, _, e⟩
  · rw [e]
    exact h.congr rfl rfl rfl
  · rw [e]
    exact h.congr rfl rfl rfl
  · have hphase := hs.phase
    simp [PhaseSafe, hp, h.relay_off] at hphase
  · obtain ⟨_, hperiod, hhalf, _⟩ := hs.running (by rw [hp]; decide)
    have hcold : Cold (countDown (countTick s)) := h.congr rfl rfl rfl
    rw [e]
    exact periodStart_cold hcold hperiod hhalf

/-- The only write a cold loop can have pending is the forced-off write of a shutdown. -/
theorem Cold.finalReq_of_relayReq {s : State} (hs : Safe s) (h : Cold s) (hreq : s.htr.relayReq = true) :
    s.htr.phase = .finalReq := by
  have hphase := hs.phase
  rcases hs.phase_of_relayReq hreq with hp | hp | hp
  · simp [PhaseSafe, hp, h.wire_off] at hphase
  · simp [PhaseSafe, hp, h.relay_off] at hphase
  · exact hp

theorem acknowledge_cold {s : State} (hs : Safe s) (h : Cold s) (hreq : s.htr.relayReq = true) :
    Cold (acknowledge s) := by
  rw [acknowledge_finalReq (h.finalReq_of_relayReq hs hreq)]
  exact h.congr rfl h.relay_off.symm rfl

theorem storeSetpoint_cold {s : State} (h : Cold s) (v : Word) : Cold (storeSetpoint v s) := { h with }

/-- Every command but the two that tune keeps a cold state cold; `HTR_START` starts a cold period. -/
theorem exec_cold {i : Instr} {s t : State} (hs : Safe s) (h : Cold s) (hexec : exec i s = .next t)
    (hgains : ∀ p g d, i ≠ .pidSetGains p g d) (hlimits : ∀ lo hi, i ≠ .pidSetLimits lo hi) : Cold t := by
  by_cases hstart : i = .htrStart
  · subst hstart
    rcases exec_htrStart_cases hexec with ⟨_, rfl⟩ | ⟨hf, hp, rfl⟩
    · exact h.congr rfl rfl rfl
    · obtain ⟨_, hperiod, hhalf⟩ := hs.stopped hf hp
      have hcold : Cold (startAccepted s) := h.congr rfl rfl rfl
      exact periodStart_cold hcold hperiod hhalf
  rcases exec_writes hexec with ⟨_, _, rfl⟩ | ⟨_, rfl⟩ | ⟨p, g, d, hi, _⟩ | ⟨lo, hi, hl, _⟩ | ⟨_, v, rfl⟩ |
    ⟨hi, _⟩ | ⟨_, rfl⟩
  · exact h.congr rfl rfl rfl
  · exact h.congr rfl rfl rfl
  · exact absurd hi (hgains p g d)
  · exact absurd hl (hlimits lo hi)
  · exact storeSetpoint_cold h v
  · exact absurd hi hstart
  · exact h.congr rfl rfl rfl

/-- Settles O55: event by event, the rule of the event keeps the state that has taken it cold; a reset makes it cold. -/
theorem untunedBlockStaysCold : Obligations.UntunedBlockStaysCold := by
  refine ⟨afterReset_cold, fun s t hs h hstep huntuned => ?_⟩
  rcases step_cases hstep with ⟨cfg, _, _, rfl⟩ | ⟨_, _, _, rfl⟩ | ⟨_, _, _, hreq, rfl⟩ | ⟨v, _, _, _, _, rfl⟩ |
    ⟨w, _, _, hev, _, hcmd⟩ | ⟨_, _, _, rfl⟩
  · exact (afterReset_cold cfg).congr rfl rfl rfl
  · exact tickStep_cold (takeEvent_safe hs .tick) (takeEvent_cold h .tick)
  · exact acknowledge_cold (takeEvent_safe hs .relayAck) (takeEvent_cold h .relayAck) hreq
  · exact completeEval_cold (takeEvent_safe hs (.qryRsp v)) (takeEvent_cold h (.qryRsp v)) v
  · have hcold : Cold (takeEvent (.cmd w) s) := takeEvent_cold h (.cmd w)
    rcases cmdStep_cases hcmd with ⟨i, hdec, hexec⟩ | ⟨_, rfl⟩
    · obtain ⟨hgains, hlimits⟩ := huntuned w i hev hdec
      exact exec_cold (takeEvent_safe hs (.cmd w)) hcold hexec hgains hlimits
    · exact hcold.congr rfl rfl rfl
  · obtain ⟨_, _, e⟩ := nextCycle_frame s
    rw [e]
    exact h.congr rfl rfl rfl

/-! ### The reset step (R200) -/

/-- R8: how the check of the parameters fails. -/
theorem not_valid_iff (c : Config) : (!c.valid) = true ↔
    c.sampleMs = 0 ∨ c.periodMs = 0 ∨ c.halfCycleMs = 0 ∨ c.spMin.toInt < 0 ∨ c.spMax.toInt < c.spMin.toInt := by
  rw [Bool.not_eq_true', ← Bool.not_eq_true, valid_iff]
  simp only [ne_eq, not_and_or, not_not, not_le]

/-- Settles O13: the registers are those of the reset state, and with nothing pending in it neither answer is enabled. -/
theorem resetStepGivesResetValues : Obligations.ResetStepGivesResetValues := by
  intro s cfg hr
  refine ⟨resetStep cfg (takeEvent (.reset cfg) s), step_of_nextEvent (nextEvent_of_reset hr),
    rfl, rfl, rfl, rfl, rfl, rfl, rfl, rfl, rfl, rfl, -- ControllerState
    rfl, rfl, rfl, rfl, rfl, -- `TIME`, `ERR` and the query
    rfl, rfl, rfl, rfl, rfl, rfl, rfl, rfl, rfl, rfl, -- HeaterState
    not_valid_iff cfg, rfl, rfl, rfl, rfl, rfl, fun v u => ?_, fun u => ?_⟩
  · rw [step_of_answer_not_pending (resetStep_evalPending cfg _)]
    nofun
  · rw [step_of_ack_not_pending rfl]
    nofun

end Sys2Proof.Machine
end
